-- ==== Sys2Proof/Word.lean ====
section
/-! DEFINITION. The machine's bit-vector widths and the index of a general register
(spec/00_scope.md R8, R11, R12). Everything is unsigned: there is no signed arithmetic. -/

namespace Sys2Proof

/-- One byte: a V register, a timer, a memory cell, an immediate NN (R8). -/
abbrev Byte := BitVec 8

/-- Sixteen bits: an instruction word, `I`, `pc`, a stack entry (R8). -/
abbrev Word := BitVec 16

/-- A 12-bit address field NNN (spec/30_encoding.md R71). -/
abbrev Addr := BitVec 12

/-- A 4-bit field N: a sprite height or a low nibble (R71). -/
abbrev Nibble := BitVec 4

/-- The number of a general register, V0 to VF (spec/10_state.md R21). -/
abbrev RegIdx := Fin 16

/-- The number of a logical key, 0x0 to 0xF (R8). -/
abbrev Key := Fin 16

/-- VF, which is also the flag register (spec/10_state.md R22). -/
abbrev vF : RegIdx := 15

/-- V0, the offset register of BNNN's legacy mode (spec/41_control_flow.md R118). -/
abbrev v0 : RegIdx := 0

end Sys2Proof
end

