-- ==== Sys2Proof/Config.lean ====
section
/-! DEFINITION. The parameters of spec/00_scope.md R9 and R10 that the rules of the machine read, their
defaults, and the values the spec leaves free. -/

namespace Sys2Proof

/-- The parameters of a machine instance (R9). They are fixed for its life (R10): no step changes them.
TICK_HZ and INSTRUCTIONS_PER_FRAME are host pacing, read by no rule of the core
(spec/70_reset_and_hazards.md R239), and are not here (log 16). -/
structure Config where
  /-- SHIFT_COPIES_VY: 8XY6 and 8XYE first copy Vy into Vx (R2, R9). -/
  shiftCopiesVy : Bool
  /-- JUMP_OFFSET_USES_VX: BNNN adds Vx and not V0 (R2, R9). `none` where the instance's value is not
  given: R9 has no default for it (log 2). -/
  jumpOffsetUsesVx : Option Bool
  /-- FLAG_WRITE_LAST: the flag is written after the result (spec/42_alu.md R131). -/
  flagWriteLast : Bool
  /-- FX1E_CLEARS_VF: FX1E clears VF when it does not overflow (spec/43_index_memory.md R152). -/
  fx1eClearsVf : Bool
  /-- STRICT_59_LOW_NIBBLE: 5XYN and 9XYN with N ≠ 0 are NOPs (spec/30_encoding.md R75). -/
  strict59 : Bool
  /-- STACK_CAPACITY: the number of stack slots, at least 1 (spec/10_state.md R28). -/
  stackCapacity : Nat
  /-- FONT_BASE: the address of glyph 0 (spec/20_memory.md R52). -/
  fontBase : Addr
  /-- FONT_TABLE: 80 bytes, 16 glyphs of 5 (spec/20_memory.md R54). -/
  fontTable : List Byte
  /-- PROGRAM_BASE: where the program is loaded and entered (spec/70_reset_and_hazards.md R231). -/
  programBase : Addr
deriving DecidableEq, Repr

namespace Config

/-- MEM_SIZE (R8). -/
def memSize : Nat := 4096

/-- The standard font (spec/20_memory.md R54), a row for each glyph. Glyph 0 is the source's; the
others are the spec's general knowledge (G3, log 14). -/
def fontGlyphs : List (List Byte) :=
  [[0xF0, 0x90, 0x90, 0x90, 0xF0], [0x20, 0x60, 0x20, 0x20, 0x70],
   [0xF0, 0x10, 0xF0, 0x80, 0xF0], [0xF0, 0x10, 0xF0, 0x10, 0xF0]] ++
  [[0x90, 0x90, 0xF0, 0x10, 0x10], [0xF0, 0x80, 0xF0, 0x10, 0xF0],
   [0xF0, 0x80, 0xF0, 0x90, 0xF0], [0xF0, 0x10, 0x20, 0x40, 0x40]] ++
  [[0xF0, 0x90, 0xF0, 0x90, 0xF0], [0xF0, 0x90, 0xF0, 0x10, 0xF0],
   [0xF0, 0x90, 0xF0, 0x90, 0x90], [0xE0, 0x90, 0xE0, 0x90, 0xE0]] ++
  [[0xF0, 0x80, 0x80, 0x80, 0xF0], [0xE0, 0x90, 0x90, 0x90, 0xE0],
   [0xF0, 0x80, 0xF0, 0x80, 0xF0], [0xF0, 0x80, 0xF0, 0x80, 0x80]]

/-- The default FONT_TABLE (spec/20_memory.md R54). -/
def defaultFont : List Byte := fontGlyphs.flatten

/-- DESIGN CHOICE (log 2, safe). R9 gives JUMP_OFFSET_USES_VX no default and leaves it OPEN (D19):
this free value stands for it where the configuration does not give it, as after reset. -/
opaque jumpOffsetToggle : Bool

/-- DESIGN CHOICE (log 3). The byte of the `n`-th draw of CXNN: spec/42_alu.md R146 takes it as a
free draw, under no law. -/
opaque draw8 : Nat → Byte

/-- The defaults of R9; the one parameter that has none is not given. -/
def default : Config where
  shiftCopiesVy := true
  jumpOffsetUsesVx := none
  flagWriteLast := true
  fx1eClearsVf := false
  strict59 := false
  stackCapacity := 16
  fontBase := 0x050
  fontTable := defaultFont
  programBase := 0x200

/-- The limits R8 and R9 put on the parameters: a stack of at least one slot, 80 font bytes, and a
font that lies in memory. -/
def wf (c : Config) : Bool :=
  decide (1 ≤ c.stackCapacity) && decide (c.fontTable.length = 80) &&
    decide (c.fontBase.toNat + 80 ≤ memSize)

end Config

end Sys2Proof
end

