-- ==== Sys2Proof/Syntax.lean ====
section
/-! DEFINITION. The instruction set: one constructor for each row of spec/opcode_table.json (44 rows),
and two for the words 5XYN and 9XYN that the same table's notes make NOPs when STRICT_59_LOW_NIBBLE
holds (log 12). Fields are those of spec/30_encoding.md R71. -/

namespace Sys2Proof

/-- An instruction (spec/30_encoding.md R77). Each docstring gives the word's pattern and its rule. -/
inductive Instr where
  /-- 00E0, clear screen (R100). -/
  | cls
  /-- 00EE, return (R111). -/
  | ret
  /-- 0NNN other than 00E0 and 00EE: no operation (R119). -/
  | sys (nnn : Addr)
  /-- 1NNN, jump (R112). -/
  | jp (nnn : Addr)
  /-- 2NNN, call (R113). -/
  | call (nnn : Addr)
  /-- 3XNN, skip if Vx = NN (R114). -/
  | seImm (x : RegIdx) (nn : Byte)
  /-- 4XNN, skip if Vx ≠ NN (R115). -/
  | sneImm (x : RegIdx) (nn : Byte)
  /-- 5XYN, skip if Vx = Vy (R116); N is free unless STRICT_59_LOW_NIBBLE (R80). -/
  | seReg (x y : RegIdx) (n : Nibble)
  /-- 6XNN, load immediate (R132). -/
  | ldImm (x : RegIdx) (nn : Byte)
  /-- 7XNN, add immediate (R133). -/
  | addImm (x : RegIdx) (nn : Byte)
  /-- 8XY0, assign (R134). -/
  | ldReg (x y : RegIdx)
  /-- 8XY1, bitwise or (R135). -/
  | orReg (x y : RegIdx)
  /-- 8XY2, bitwise and (R136). -/
  | andReg (x y : RegIdx)
  /-- 8XY3, bitwise exclusive or (R137). -/
  | xorReg (x y : RegIdx)
  /-- 8XY4, add with carry flag (R138). -/
  | addReg (x y : RegIdx)
  /-- 8XY5, Vx - Vy (R139). -/
  | subReg (x y : RegIdx)
  /-- 8XY6, shift right (R140). -/
  | shrReg (x y : RegIdx)
  /-- 8XY7, Vy - Vx (R141). -/
  | subnReg (x y : RegIdx)
  /-- 8XYE, shift left (R142). -/
  | shlReg (x y : RegIdx)
  /-- 8XY8: no operation (R143). -/
  | nop8XY8 (x y : RegIdx)
  /-- 8XY9: no operation (R143). -/
  | nop8XY9 (x y : RegIdx)
  /-- 8XYA: no operation (R143). -/
  | nop8XYA (x y : RegIdx)
  /-- 8XYB: no operation (R143). -/
  | nop8XYB (x y : RegIdx)
  /-- 8XYC: no operation (R143). -/
  | nop8XYC (x y : RegIdx)
  /-- 8XYD: no operation (R143). -/
  | nop8XYD (x y : RegIdx)
  /-- 8XYF: no operation (R143). -/
  | nop8XYF (x y : RegIdx)
  /-- 9XYN, skip if Vx ≠ Vy (R117); N is free unless STRICT_59_LOW_NIBBLE (R80). -/
  | sneReg (x y : RegIdx) (n : Nibble)
  /-- ANNN, set I (R150). -/
  | ldI (nnn : Addr)
  /-- BNNN, jump with offset (R118). -/
  | jpOff (nnn : Addr)
  /-- CXNN, random byte masked with NN (R145). -/
  | rnd (x : RegIdx) (nn : Byte)
  /-- DXYN, draw an N-row sprite (R101). -/
  | drw (x y : RegIdx) (n : Nibble)
  /-- EX9E, skip if the key Vx is held (R170). -/
  | skp (x : RegIdx)
  /-- EXA1, skip if the key Vx is not held (R171). -/
  | sknp (x : RegIdx)
  /-- EXNN with NN neither 9E nor A1: no operation (R178). -/
  | nopE (x : RegIdx) (nn : Byte)
  /-- FX07, read DT (R172). -/
  | ldVxDt (x : RegIdx)
  /-- FX0A, wait for a key's release (R175). -/
  | ldVxK (x : RegIdx)
  /-- FX15, write DT (R173). -/
  | ldDtVx (x : RegIdx)
  /-- FX18, write ST (R174). -/
  | ldStVx (x : RegIdx)
  /-- FX1E, add Vx to I (R152). -/
  | addI (x : RegIdx)
  /-- FX29, the address of glyph Vx (R154). -/
  | ldF (x : RegIdx)
  /-- FX33, store Vx in decimal (R155). -/
  | ldB (x : RegIdx)
  /-- FX55, store V0 to Vx (R156). -/
  | stRegs (x : RegIdx)
  /-- FX65, load V0 to Vx (R157). -/
  | ldRegs (x : RegIdx)
  /-- FXNN with any other NN: no operation (R178). -/
  | nopF (x : RegIdx) (nn : Byte)
  /-- 5XYN with N ≠ 0 when STRICT_59_LOW_NIBBLE holds: no operation (R75, R78). -/
  | nop5XYN (x y : RegIdx) (n : Nibble)
  /-- 9XYN with N ≠ 0 when STRICT_59_LOW_NIBBLE holds: no operation (R75, R78). -/
  | nop9XYN (x y : RegIdx) (n : Nibble)
deriving DecidableEq, Repr

end Sys2Proof
end

