-- ==== Sys2Proof/WellFormed.lean ====
section
/-! DEFINITION. Which terms of `Instr` are instructions of the machine. The field types already bound every
operand; what is left is that a fallback row does not take the words of the rows above it
(spec/30_encoding.md R75, R78). -/

namespace Sys2Proof

/-- The NN values that family E gives a meaning (R75). -/
def knownE : List Byte := [0x9E, 0xA1]

/-- The NN values that family F gives a meaning (R75). -/
def knownF : List Byte := [0x07, 0x0A, 0x15, 0x18, 0x1E, 0x29, 0x33, 0x55, 0x65]

/-- The NNN values of family 0 that are CLS and RET (R75, whole-word match R80). -/
def known0 : List Addr := [0x0E0, 0x0EE]

/-- `i` is an instruction of a machine whose STRICT_59_LOW_NIBBLE is `strict`. -/
def Instr.wf (strict : Bool) : Instr → Bool
  | .sys nnn => !known0.contains nnn
  | .seReg _ _ n => !strict || n == 0
  | .sneReg _ _ n => !strict || n == 0
  | .nop5XYN _ _ n => strict && n != 0
  | .nop9XYN _ _ n => strict && n != 0
  | .nopE _ nn => !knownE.contains nn
  | .nopF _ nn => !knownF.contains nn
  | .cls | .ret | .jp _ | .call _ | .seImm _ _ | .sneImm _ _ | .ldImm _ _ | .addImm _ _ => true
  | .ldReg _ _ | .orReg _ _ | .andReg _ _ | .xorReg _ _ | .addReg _ _ | .subReg _ _ => true
  | .shrReg _ _ | .subnReg _ _ | .shlReg _ _ => true
  | .nop8XY8 _ _ | .nop8XY9 _ _ | .nop8XYA _ _ | .nop8XYB _ _ | .nop8XYC _ _ => true
  | .nop8XYD _ _ | .nop8XYF _ _ => true
  | .ldI _ | .jpOff _ | .rnd _ _ | .drw _ _ _ | .skp _ | .sknp _ => true
  | .ldVxDt _ | .ldVxK _ | .ldDtVx _ | .ldStVx _ | .addI _ | .ldF _ | .ldB _ => true
  | .stRegs _ | .ldRegs _ => true

end Sys2Proof
end

