-- ==== Sys2Proof/Decode.lean ====
section
/-! DEFINITION. The decoder, total on every word (spec/30_encoding.md R74, R75) and on any bytes, and the
encoder, both written from the formats of R73 and the opcode map of R77. -/

namespace Sys2Proof

/-- Field F, w[15:12] (R71). -/
def fieldF (w : Word) : Nibble := w.extractLsb' 12 4

/-- Field X, w[11:8] (R71). -/
def fieldX (w : Word) : RegIdx := (w.extractLsb' 8 4).toFin

/-- Field Y, w[7:4] (R71). -/
def fieldY (w : Word) : RegIdx := (w.extractLsb' 4 4).toFin

/-- Field N, w[3:0] (R71). -/
def fieldN (w : Word) : Nibble := w.extractLsb' 0 4

/-- Field NN, w[7:0] (R71). -/
def fieldNN (w : Word) : Byte := w.extractLsb' 0 8

/-- Field NNN, w[11:0] (R71). -/
def fieldNNN (w : Word) : Addr := w.extractLsb' 0 12

/-- Family 0: CLS and RET match the whole word, every other word is a NOP (R75, R80). -/
def decode0 (w : Word) : Instr :=
  if w = 0x00E0 then .cls else if w = 0x00EE then .ret else .sys (fieldNNN w)

/-- Family 5 (R75). -/
def decode5 (strict : Bool) (x y : RegIdx) (n : Nibble) : Instr :=
  if n ≠ 0 ∧ strict = true then .nop5XYN x y n else .seReg x y n

/-- Family 9 (R75). -/
def decode9 (strict : Bool) (x y : RegIdx) (n : Nibble) : Instr :=
  if n ≠ 0 ∧ strict = true then .nop9XYN x y n else .sneReg x y n

/-- Family 8: the low nibble alone selects (R75, R80). -/
def decode8 (x y : RegIdx) (n : Nibble) : Instr :=
  match n with
  | 0x0#4 => .ldReg x y
  | 0x1#4 => .orReg x y
  | 0x2#4 => .andReg x y
  | 0x3#4 => .xorReg x y
  | 0x4#4 => .addReg x y
  | 0x5#4 => .subReg x y
  | 0x6#4 => .shrReg x y
  | 0x7#4 => .subnReg x y
  | 0x8#4 => .nop8XY8 x y
  | 0x9#4 => .nop8XY9 x y
  | 0xA#4 => .nop8XYA x y
  | 0xB#4 => .nop8XYB x y
  | 0xC#4 => .nop8XYC x y
  | 0xD#4 => .nop8XYD x y
  | 0xE#4 => .shlReg x y
  | _ => .nop8XYF x y

/-- Family E: the low byte alone selects (R75, R80). -/
def decodeE (x : RegIdx) (nn : Byte) : Instr :=
  match nn with
  | 0x9E#8 => .skp x
  | 0xA1#8 => .sknp x
  | _ => .nopE x nn

/-- Family F: the low byte alone selects (R75, R80). -/
def decodeF (x : RegIdx) (nn : Byte) : Instr :=
  match nn with
  | 0x07#8 => .ldVxDt x
  | 0x0A#8 => .ldVxK x
  | 0x15#8 => .ldDtVx x
  | 0x18#8 => .ldStVx x
  | 0x1E#8 => .addI x
  | 0x29#8 => .ldF x
  | 0x33#8 => .ldB x
  | 0x55#8 => .stRegs x
  | 0x65#8 => .ldRegs x
  | _ => .nopF x nn

/-- The decode function of R75, on a machine whose STRICT_59_LOW_NIBBLE is `strict`. It is total
and has no failure mode (R74). -/
def decodeWord (strict : Bool) (w : Word) : Instr :=
  match fieldF w with
  | 0x0#4 => decode0 w
  | 0x1#4 => .jp (fieldNNN w)
  | 0x2#4 => .call (fieldNNN w)
  | 0x3#4 => .seImm (fieldX w) (fieldNN w)
  | 0x4#4 => .sneImm (fieldX w) (fieldNN w)
  | 0x5#4 => decode5 strict (fieldX w) (fieldY w) (fieldN w)
  | 0x6#4 => .ldImm (fieldX w) (fieldNN w)
  | 0x7#4 => .addImm (fieldX w) (fieldNN w)
  | 0x8#4 => decode8 (fieldX w) (fieldY w) (fieldN w)
  | 0x9#4 => decode9 strict (fieldX w) (fieldY w) (fieldN w)
  | 0xA#4 => .ldI (fieldNNN w)
  | 0xB#4 => .jpOff (fieldNNN w)
  | 0xC#4 => .rnd (fieldX w) (fieldNN w)
  | 0xD#4 => .drw (fieldX w) (fieldY w) (fieldN w)
  | 0xE#4 => decodeE (fieldX w) (fieldNN w)
  | _ => decodeF (fieldX w) (fieldNN w)

/-- An instruction word is big-endian: the byte at the lower address is the high byte
(spec/20_memory.md R55). -/
def joinBytes (hi lo : Byte) : Word := hi ++ lo

/-- The byte at the lower address, w[15:8] (R55). -/
def highByte (w : Word) : Byte := w.extractLsb' 8 8

/-- The byte at the higher address, w[7:0] (R55). -/
def lowByte (w : Word) : Byte := w.extractLsb' 0 8

/-- Why bytes hold no instruction. -/
inductive DecodeError where
  /-- Fewer than the two bytes of an instruction (R70) are there. No word is ever rejected (R74). -/
  | truncated (found : Nat)
deriving DecidableEq, Repr

/-- The instruction at the head of a byte sequence and the bytes after it. -/
def decodeBytes (strict : Bool) : List Byte → Except DecodeError (Instr × List Byte)
  | hi :: lo :: rest => .ok (decodeWord strict (joinBytes hi lo), rest)
  | bytes => .error (.truncated bytes.length)

/-- The four bits that name a register. -/
def regBits (x : RegIdx) : Nibble := BitVec.ofFin x

/-- Format A (R73): F NNN. -/
def formatA (f : Nibble) (nnn : Addr) : Word := f ++ nnn

/-- Formats I and K (R73): F X NN. -/
def formatI (f : Nibble) (x : RegIdx) (nn : Byte) : Word := (f ++ regBits x : BitVec 8) ++ nn

/-- Formats R and D (R73): F X Y N. -/
def formatR (f : Nibble) (x y : RegIdx) (n : Nibble) : Word :=
  (f ++ regBits x : BitVec 8) ++ (regBits y ++ n : BitVec 8)

/-- The word of an instruction (R73, R77). -/
def encode : Instr → Word
  | .cls => 0x00E0
  | .ret => 0x00EE
  | .sys nnn => formatA 0x0 nnn
  | .jp nnn => formatA 0x1 nnn
  | .call nnn => formatA 0x2 nnn
  | .seImm x nn => formatI 0x3 x nn
  | .sneImm x nn => formatI 0x4 x nn
  | .seReg x y n => formatR 0x5 x y n
  | .ldImm x nn => formatI 0x6 x nn
  | .addImm x nn => formatI 0x7 x nn
  | .ldReg x y => formatR 0x8 x y 0x0
  | .orReg x y => formatR 0x8 x y 0x1
  | .andReg x y => formatR 0x8 x y 0x2
  | .xorReg x y => formatR 0x8 x y 0x3
  | .addReg x y => formatR 0x8 x y 0x4
  | .subReg x y => formatR 0x8 x y 0x5
  | .shrReg x y => formatR 0x8 x y 0x6
  | .subnReg x y => formatR 0x8 x y 0x7
  | .shlReg x y => formatR 0x8 x y 0xE
  | .nop8XY8 x y => formatR 0x8 x y 0x8
  | .nop8XY9 x y => formatR 0x8 x y 0x9
  | .nop8XYA x y => formatR 0x8 x y 0xA
  | .nop8XYB x y => formatR 0x8 x y 0xB
  | .nop8XYC x y => formatR 0x8 x y 0xC
  | .nop8XYD x y => formatR 0x8 x y 0xD
  | .nop8XYF x y => formatR 0x8 x y 0xF
  | .sneReg x y n => formatR 0x9 x y n
  | .ldI nnn => formatA 0xA nnn
  | .jpOff nnn => formatA 0xB nnn
  | .rnd x nn => formatI 0xC x nn
  | .drw x y n => formatR 0xD x y n
  | .skp x => formatI 0xE x 0x9E
  | .sknp x => formatI 0xE x 0xA1
  | .nopE x nn => formatI 0xE x nn
  | .ldVxDt x => formatI 0xF x 0x07
  | .ldVxK x => formatI 0xF x 0x0A
  | .ldDtVx x => formatI 0xF x 0x15
  | .ldStVx x => formatI 0xF x 0x18
  | .addI x => formatI 0xF x 0x1E
  | .ldF x => formatI 0xF x 0x29
  | .ldB x => formatI 0xF x 0x33
  | .stRegs x => formatI 0xF x 0x55
  | .ldRegs x => formatI 0xF x 0x65
  | .nopF x nn => formatI 0xF x nn
  | .nop5XYN x y n => formatR 0x5 x y n
  | .nop9XYN x y n => formatR 0x9 x y n

/-- The bytes of an instruction in memory order (R55). -/
def encodeBytes (i : Instr) : List Byte := [highByte (encode i), lowByte (encode i)]

/-- The word whose bits are `w` as spec/opcode_table.json numbers them, bits from `nbits` up zero. -/
def tableWord (nbits w : Nat) : Word := BitVec.ofNat 16 (w % 2 ^ nbits)

/-- The instruction the decoder reads from a row of spec/opcode_table.json, on a machine with the
default STRICT_59_LOW_NIBBLE (log 12). -/
def decodeTableWord (nbits w : Nat) : Option Instr :=
  match decodeBytes Config.default.strict59 [highByte (tableWord nbits w), lowByte (tableWord nbits w)] with
  | .ok (i, _) => some i
  | .error _ => none

end Sys2Proof
end

