-- ==== Sys2Proof/Machine/State.lean ====
section
/-! DEFINITION. The machine's state as plain data (spec/10_state.md R20), the reasons a step can stop, and
the state after reset (R39, spec/70_reset_and_hazards.md R230). -/

namespace Sys2Proof.Machine

/-- The fatal conditions of spec/60_exceptions.md R205. -/
inductive FatalKind where
  /-- Code 1: a fetch with pc > 0x0FFE (R202). -/
  | pcOutOfBounds
  /-- Code 2: 00EE with an empty stack (R203). -/
  | stackUnderflow
  /-- Code 3: 2NNN with a full stack (R203). -/
  | stackOverflow
deriving DecidableEq, Repr

/-- The code of a fatal condition (R205). -/
def FatalKind.code : FatalKind → Nat
  | .pcOutOfBounds => 1
  | .stackUnderflow => 2
  | .stackOverflow => 3

/-- The conditions of spec/60_exceptions.md R205, all of them. -/
inductive Condition where
  /-- Codes 1 to 3: a fatal condition, recorded in `halted` and `faultPc`. -/
  | fatal (kind : FatalKind)
  /-- Code 4: AddressOutOfRange, not fatal, recorded in `aor` and `aorLog` (R204). -/
  | addressOutOfRange
deriving DecidableEq, Repr

/-- The code of R205. -/
def Condition.code : Condition → Nat
  | .fatal kind => kind.code
  | .addressOutOfRange => 4

/-- One boolean for each logical key (spec/10_state.md R33, spec/60_exceptions.md R213). -/
abbrev KeySet := Vector Bool 16

/-- The 64 × 32 grid of pixels (R32), 32 rows from the top, each of 64 columns from the left. -/
abbrev Framebuffer := Vector (Vector Bool 64) 32

/-- Memory: address and byte pairs in the canonical form of `Memory.wf`. -/
abbrev Memory := List Host.Cell

/-- Whose turn it is to move: the agents of spec/00_scope.md R17, and the host where it sets the
keys (log 4). -/
inductive Turn where
  /-- One Executor step (spec/30_encoding.md R76). -/
  | executor
  /-- One tick of the Timer Ticker (spec/60_exceptions.md R210). -/
  | tick
  /-- The host sets the key state (spec/60_exceptions.md R213). -/
  | keys (held : KeySet)
deriving DecidableEq, Repr

/-- Why the machine stops. -/
inductive Fault where
  /-- Raised by the Executor's step alone, when nothing is scheduled and a fatal condition has halted
  the machine: it "has no enabled step until reset" (spec/60_exceptions.md R201). Safe: the model
  stops where the Executor does. -/
  | executorHalted (kind : FatalKind)
deriving DecidableEq, Repr

/-- Why an instruction has no meaning here. -/
inductive Refusal where
  /-- Raised by an arm of `exec` for an instruction that has no meaning yet. Safe: nothing is claimed.
  No arm raises it now. -/
  | notModelled (mnemonic : String)
deriving DecidableEq, Repr

/-- The Machine State record of spec/10_state.md R20, with the inputs and parameters of R36 that a
step reads. -/
structure State where
  /-- V0 to VF (R21). -/
  V : Vector Byte 16
  /-- The index register (R23). -/
  I : Word
  /-- The program counter (R25). -/
  pc : Word
  /-- The stack slots, STACK_CAPACITY of them (R28). -/
  stack : List Word
  /-- The number of stack entries held (R28). -/
  sp : Nat
  /-- The delay timer (R30). -/
  DT : Byte
  /-- The sound timer (R31). -/
  ST : Byte
  /-- The framebuffer (R32). -/
  fb : Framebuffer
  /-- The key edge latches (R33). -/
  latch : KeySet
  /-- The fatal condition that halted the machine, if any (R34). -/
  halted : Option FatalKind
  /-- The address of the instruction that raised it (R34). -/
  faultPc : Word
  /-- The sticky AddressOutOfRange status (R35). -/
  aor : Bool
  /-- The addresses of the AddressOutOfRange conditions, oldest first (R35; log 8). -/
  aorLog : List Nat
  /-- Memory (spec/20_memory.md R50). -/
  mem : Memory
  /-- Input: the keys now held (R36, spec/60_exceptions.md R213; log 5). -/
  held : KeySet
  /-- The model's own: how many bytes CXNN has drawn (log 3). -/
  draws : Nat
  /-- The model's own: the coming turns, the next one first; the Executor moves when it is empty
  (log 4). -/
  schedule : List Turn
  /-- The parameters of the machine (spec/00_scope.md R9, R10; log 1). -/
  cfg : Config
deriving DecidableEq, Repr

/-- No pixel set. -/
def blankScreen : Framebuffer := Vector.replicate 32 (Vector.replicate 64 false)

/-- No key. -/
def noKeys : KeySet := Vector.replicate 16 false

/-- The machine right after reset, no program loaded (R39). The values of `held`, `draws`, `schedule`,
`aorLog` and `cfg` are the model's (log 1 to 5, 8); how a program comes to run is log 11. -/
def State.reset : State where
  V := Vector.replicate 16 0
  I := 0
  pc := 0x200
  stack := List.replicate 16 0
  sp := 0
  DT := 0
  ST := 0
  fb := blankScreen
  latch := noKeys
  halted := none
  faultPc := 0
  aor := false
  aorLog := []
  mem := []
  held := noKeys
  draws := 0
  schedule := []
  cfg := Config.default

end Sys2Proof.Machine
end

