-- ==== Sys2Proof/Machine/Memory.lean ====
section
/-! DEFINITION. Memory (spec/20_memory.md R50, R56, R57): reading and writing one byte of the 4096, over a
list of address and byte pairs in one canonical form (log 10). -/

namespace Sys2Proof.Machine

/-- What an address that is not listed reads as: the contents after reset with no program, the font
at FONT_BASE's default and zero elsewhere (R52, R54, spec/10_state.md R39). -/
def resetByte (a : Nat) : Byte :=
  let base := Config.default.fontBase.toNat
  if base ≤ a then Config.defaultFont.getD (a - base) 0 else 0

/-- The byte at address `a` (R56). -/
def Memory.read : Memory → Nat → Byte
  | [], a => resetByte a
  | (b, v) :: m, a => if a = b then v else Memory.read m a

/-- A cell in front of a memory, left out when it holds what its address reads as anyway. -/
def Memory.cell (a : Nat) (v : Byte) (m : Memory) : Memory :=
  if v = resetByte a then m else (a, v) :: m

/-- Store `v` at address `a` (R57). -/
def Memory.write : Memory → Nat → Byte → Memory
  | [], a, v => Memory.cell a v []
  | (b, u) :: m, a, v =>
    if a < b then Memory.cell a v ((b, u) :: m)
    else if a = b then Memory.cell a v m
    else (b, u) :: Memory.write m a v

/-- Store a sequence of bytes from address `a` up. -/
def Memory.writeBytes (m : Memory) (a : Nat) : List Byte → Memory
  | [] => m
  | v :: vs => Memory.writeBytes (Memory.write m a v) (a + 1) vs

/-- Addresses strictly rise from above `lo`, none of them reaches MEM_SIZE, and no entry holds what
its address reads as anyway. -/
def Memory.wfFrom (lo : Nat) : Memory → Bool
  | [] => true
  | (a, v) :: m =>
    decide (lo ≤ a) && decide (a < Config.memSize) && decide (v ≠ resetByte a) && Memory.wfFrom (a + 1) m

/-- The canonical form: equal memories are equal lists. -/
def Memory.wf (m : Memory) : Bool := Memory.wfFrom 0 m

end Sys2Proof.Machine
end

