-- ==== Sys2Proof/Machine/Ops.lean ====
section
/-! DEFINITION. The named operations over the state: registers, pc, stack, pixels, the two kinds of error
condition (spec/60_exceptions.md R201, R204), and fetching (spec/30_encoding.md R76). -/

namespace Sys2Proof.Machine

/-- The outcome of a step or of an instruction. -/
abbrev Result := Host.Outcome State Fault Refusal

/-- Read Vx (spec/10_state.md R21). -/
def State.reg (s : State) (x : RegIdx) : Byte := s.V[x.val]

/-- Write Vx (R21). -/
def State.setReg (s : State) (x : RegIdx) (v : Byte) : State := { s with V := s.V.set x.val v }

/-- Write I, the full value stored (R37). -/
def State.setI (s : State) (v : Word) : State := { s with I := v }

/-- Write pc; a target is not checked when it is set (spec/41_control_flow.md R110). -/
def State.setPc (s : State) (a : Word) : State := { s with pc := a }

/-- The address of the instruction in execution: fetch has set pc to the address plus 2 (R25; log 7). -/
def State.instrAddr (s : State) : Word := s.pc - 2

/-- Skip the next word if the condition holds (spec/41_control_flow.md R114). -/
def State.skipIf (s : State) (b : Bool) : State := if b then s.setPc (s.pc + 2) else s

/-! ## Memory -/

/-- MemRead(a, 1) (spec/20_memory.md R56). -/
def State.byteAt (s : State) (a : Nat) : Byte := s.mem.read a

/-- MemWrite(a, 1, v) (R57). -/
def State.storeByte (s : State) (a : Nat) (v : Byte) : State := { s with mem := s.mem.write a v }

/-! ## Error conditions -/

/-- raise Fatal(kind) for the instruction at `a` (spec/60_exceptions.md R201): nothing else of the
step is written, pc is the instruction's address again, and the status fields record it. -/
def State.raiseFatal (s : State) (kind : FatalKind) (a : Word) : State :=
  { s with pc := a, halted := some kind, faultPc := a }

/-- signal AOR(a) (R204): sticky, recorded, the access at `a` not performed. -/
def State.signalAor (s : State) (a : Nat) : State :=
  { s with aor := true, aorLog := s.aorLog ++ [a] }

/-- The conditions on record, as the host reads them from the status fields (R205, spec/10_state.md R34,
R35). -/
def State.conditions (s : State) : List Condition :=
  s.halted.toList.map .fatal ++ if s.aor then [.addressOutOfRange] else []

/-! ## Stack (spec/10_state.md R29) -/

/-- Push(v): nothing when the stack is full. -/
def State.push (s : State) (v : Word) : Option State :=
  if s.sp = s.cfg.stackCapacity then none
  else some { s with stack := s.stack.set s.sp v, sp := s.sp + 1 }

/-- Slot `k`. Every slot a well-formed state reads exists (log 9). -/
def State.slot (s : State) (k : Nat) : Word := s.stack.getD k 0

/-- Pop(): nothing when the stack is empty. -/
def State.pop (s : State) : Option (Word × State) :=
  match s.sp with
  | 0 => none
  | k + 1 => some (s.slot k, { s with sp := k })

/-! ## Framebuffer (R32) -/

/-- The pixel at column `x`, row `y`. -/
def State.pixel (s : State) (x : Fin 64) (y : Fin 32) : Bool := (s.fb[y.val])[x.val]

/-- Write the pixel at column `x`, row `y`. -/
def State.setPixel (s : State) (x : Fin 64) (y : Fin 32) (b : Bool) : State :=
  { s with fb := s.fb.set y.val ((s.fb[y.val]).set x.val b) }

/-! ## Fetch -/

/-- The largest address an instruction can be fetched from (spec/30_encoding.md R76). -/
def lastFetch : Nat := 0x0FFE

/-- The word at address `a`, its first byte the high one (R76, spec/20_memory.md R55). -/
def State.wordAt (s : State) (a : Nat) : Word := joinBytes (s.byteAt a) (s.byteAt (a + 1))

/-- The instruction at pc. -/
def State.fetched (s : State) : Instr := decodeWord s.cfg.strict59 (s.wordAt s.pc.toNat)

/-- Place the word `w` at pc, as a loader would (log 11). -/
def State.placeWord (s : State) (w : Word) : State :=
  (s.storeByte s.pc.toNat (highByte w)).storeByte (s.pc.toNat + 1) (lowByte w)

end Sys2Proof.Machine
end

