-- ==== Sys2Proof/Machine/Operands.lean ====
section
/-! DEFINITION. Operand forms: zero extension (spec/30_encoding.md R72), addressing through I
(spec/43_index_memory.md R151), sprite bits, decimal digits and key queries. -/

namespace Sys2Proof.Machine

/-- An address field as a 16-bit value (R72). -/
def zextAddr (nnn : Addr) : Word := nnn.setWidth 16

/-- A byte as a 16-bit value (R72). -/
def zextByte (v : Byte) : Word := v.setWidth 16

/-- The X field inside an address field, NNN[11:8] (spec/41_control_flow.md R118). -/
def regOfAddr (nnn : Addr) : RegIdx := (nnn.extractLsb' 8 4).toFin

/-- I & 0x0FFF, the base of every access through I (spec/10_state.md R24). -/
def State.indexBase (s : State) : Nat := (s.I &&& 0x0FFF).toNat

/-- ea(k): the base plus the byte offset, not masked again (R151). -/
def State.ea (s : State) (k : Nat) : Nat := s.indexBase + k

/-- The largest address of memory (spec/20_memory.md R50). -/
def lastByte : Nat := 0x0FFF

/-- Store a byte at ea(k), or signal AOR (R151, R155, R156). -/
def State.storeThroughI (s : State) (k : Nat) (v : Byte) : State :=
  if lastByte < s.ea k then s.signalAor (s.ea k) else s.storeByte (s.ea k) v

/-- Load Vk from ea(k), or signal AOR and leave Vk (R151, R157). -/
def State.loadThroughI (s : State) (k : RegIdx) : State :=
  if lastByte < s.ea k.val then s.signalAor (s.ea k.val) else s.setReg k (s.byteAt (s.ea k.val))

/-- V0 to Vx, in order. -/
def regsUpTo (x : RegIdx) : List RegIdx := (List.range (x.val + 1)).map (Fin.ofNat 16)

/-- The hundreds, tens and ones of a byte (R155). -/
def hundreds (v : Byte) : Byte := BitVec.ofNat 8 (v.toNat / 100)

/-- The tens digit. -/
def tens (v : Byte) : Byte := BitVec.ofNat 8 (v.toNat / 10 % 10)

/-- The ones digit. -/
def ones (v : Byte) : Byte := BitVec.ofNat 8 (v.toNat % 10)

/-- The bit of a sprite row that column `c` of the sprite shows: bit 7 is the leftmost
(spec/40_display.md R101; log 14). -/
def spriteBit (row : Byte) (c : Nat) : Bool := row.getLsbD (7 - c)

/-- isHeld(k) (spec/60_exceptions.md R213). -/
def State.isHeld (s : State) (k : Key) : Bool := s.held[k.val]

/-- KeyHeld(v): a value above 0x0F names no key and is not held (spec/44_timers_input.md R177). -/
def State.keyHeld (s : State) (v : Byte) : Bool :=
  if h : v.toNat < 16 then s.isHeld ⟨v.toNat, h⟩ else false

end Sys2Proof.Machine
end

