-- ==== Sys2Proof/Machine/Flags.lean ====
section
/-! DEFINITION. Every computation of VF as a flag (spec/10_state.md R22) and the order in which result and
flag are written (spec/42_alu.md R131). -/

namespace Sys2Proof.Machine

/-- A flag as the byte VF holds. -/
def flagByte (b : Bool) : Byte := if b then 1 else 0

/-- The carry of 8XY4: the 9-bit sum exceeds 255 (R138). -/
def carryFlag (a b : Byte) : Byte := flagByte (decide (255 < a.toNat + b.toNat))

/-- The not-borrow of a - b, strict: equal operands give 0 (R139, R141). -/
def notBorrowFlag (a b : Byte) : Byte := flagByte (decide (b.toNat < a.toNat))

/-- The bit a right shift moves out (R140). -/
def shrFlag (v : Byte) : Byte := flagByte (v.getLsbD 0)

/-- The bit a left shift moves out (R142). -/
def shlFlag (v : Byte) : Byte := flagByte (v.getLsbD 7)

/-- FX1E's flag: bit 12 of the new I (spec/43_index_memory.md R152, R153). -/
def indexOverflow (t : Word) : Bool := t.getLsbD 12

/-- WriteResultAndFlag(X, res, flag) (R131). -/
def State.writeResultAndFlag (s : State) (x : RegIdx) (res flag : Byte) : State :=
  if s.cfg.flagWriteLast then (s.setReg x res).setReg vF flag else (s.setReg vF flag).setReg x res

/-- VF after FX1E: set on overflow, else cleared only when FX1E_CLEARS_VF (R152). -/
def State.writeIndexFlag (s : State) (t : Word) : State :=
  if indexOverflow t then s.setReg vF 1
  else if s.cfg.fx1eClearsVf then s.setReg vF 0
  else s

end Sys2Proof.Machine
end

