-- ==== Sys2Proof/Machine/Alu.lean ====
section
/-! DEFINITION. Register arithmetic (spec/42_alu.md). Every operand is read before any register is written
(R130). -/

namespace Sys2Proof.Machine

/-- 6XNN (R132). -/
def execLdImm (x : RegIdx) (nn : Byte) (s : State) : Result := .next (s.setReg x nn)

/-- 7XNN (R133): modulo 256, no flag. -/
def execAddImm (x : RegIdx) (nn : Byte) (s : State) : Result := .next (s.setReg x (s.reg x + nn))

/-- 8XY0 (R134). -/
def execLdReg (x y : RegIdx) (s : State) : Result := .next (s.setReg x (s.reg y))

/-- 8XY1 (R135). -/
def execOrReg (x y : RegIdx) (s : State) : Result := .next (s.setReg x (s.reg x ||| s.reg y))

/-- 8XY2 (R136). -/
def execAndReg (x y : RegIdx) (s : State) : Result := .next (s.setReg x (s.reg x &&& s.reg y))

/-- 8XY3 (R137). -/
def execXorReg (x y : RegIdx) (s : State) : Result := .next (s.setReg x (s.reg x ^^^ s.reg y))

/-- 8XY4 (R138). -/
def execAddReg (x y : RegIdx) (s : State) : Result :=
  .next (s.writeResultAndFlag x (s.reg x + s.reg y) (carryFlag (s.reg x) (s.reg y)))

/-- 8XY5 (R139): the flag is strict. -/
def execSubReg (x y : RegIdx) (s : State) : Result :=
  .next (s.writeResultAndFlag x (s.reg x - s.reg y) (notBorrowFlag (s.reg x) (s.reg y)))

/-- 8XY7 (R141): the flag is strict. -/
def execSubnReg (x y : RegIdx) (s : State) : Result :=
  .next (s.writeResultAndFlag x (s.reg y - s.reg x) (notBorrowFlag (s.reg y) (s.reg x)))

/-- The first line of 8XY6 and 8XYE: SHIFT_COPIES_VY copies Vy into Vx (R140, R142). -/
def State.shiftCopy (s : State) (x y : RegIdx) : State :=
  if s.cfg.shiftCopiesVy then s.setReg x (s.reg y) else s

/-- 8XY6 (R140). -/
def execShrReg (x y : RegIdx) (s : State) : Result :=
  let s := s.shiftCopy x y
  .next (s.writeResultAndFlag x (s.reg x >>> 1) (shrFlag (s.reg x)))

/-- 8XYE (R142). -/
def execShlReg (x y : RegIdx) (s : State) : Result :=
  let s := s.shiftCopy x y
  .next (s.writeResultAndFlag x (s.reg x <<< 1) (shlFlag (s.reg x)))

/-- 8XY8 (R143). -/
def execNop8XY8 (_x _y : RegIdx) (s : State) : Result := .next s

/-- 8XY9 (R143). -/
def execNop8XY9 (_x _y : RegIdx) (s : State) : Result := .next s

/-- 8XYA (R143). -/
def execNop8XYA (_x _y : RegIdx) (s : State) : Result := .next s

/-- 8XYB (R143). -/
def execNop8XYB (_x _y : RegIdx) (s : State) : Result := .next s

/-- 8XYC (R143). -/
def execNop8XYC (_x _y : RegIdx) (s : State) : Result := .next s

/-- 8XYD (R143). -/
def execNop8XYD (_x _y : RegIdx) (s : State) : Result := .next s

/-- 8XYF (R143). -/
def execNop8XYF (_x _y : RegIdx) (s : State) : Result := .next s

/-- The byte the next CXNN draws (R146): a free value (log 3). -/
def State.nextDraw (s : State) : Byte := Config.draw8 s.draws

/-- One draw has been made. -/
def State.countDraw (s : State) : State := { s with draws := s.draws + 1 }

/-- CXNN (R145): one draw, masked with NN. -/
def execRnd (x : RegIdx) (nn : Byte) (s : State) : Result :=
  .next (s.countDraw.setReg x (s.nextDraw &&& nn))

end Sys2Proof.Machine
end

