-- ==== Sys2Proof/Machine/ControlFlow.lean ====
section
/-! DEFINITION. Control flow (spec/41_control_flow.md). Each meaning runs after fetch has set pc to the
instruction's address plus 2 (R110; log 7). -/

namespace Sys2Proof.Machine

/-- 00EE (R111): an empty stack is the fatal StackUnderflow. -/
def execRet (s : State) : Result :=
  match s.pop with
  | some (a, t) => .next (t.setPc a)
  | none => .next (s.raiseFatal .stackUnderflow s.instrAddr)

/-- 0NNN other than 00E0 and 00EE (R119). -/
def execSys (_nnn : Addr) (s : State) : Result := .next s

/-- 1NNN (R112). -/
def execJp (nnn : Addr) (s : State) : Result := .next (s.setPc (zextAddr nnn))

/-- 2NNN (R113): the pc pushed is the one after fetch; a full stack is the fatal StackOverflow. -/
def execCall (nnn : Addr) (s : State) : Result :=
  match s.push s.pc with
  | some t => .next (t.setPc (zextAddr nnn))
  | none => .next (s.raiseFatal .stackOverflow s.instrAddr)

/-- 3XNN (R114). -/
def execSeImm (x : RegIdx) (nn : Byte) (s : State) : Result := .next (s.skipIf (s.reg x == nn))

/-- 4XNN (R115). -/
def execSneImm (x : RegIdx) (nn : Byte) (s : State) : Result := .next (s.skipIf (s.reg x != nn))

/-- 5XYN (R116); N has no part in it. -/
def execSeReg (x y : RegIdx) (_n : Nibble) (s : State) : Result := .next (s.skipIf (s.reg x == s.reg y))

/-- 5XYN with N ≠ 0 under STRICT_59_LOW_NIBBLE (spec/30_encoding.md R78). -/
def execNop5XYN (_x _y : RegIdx) (_n : Nibble) (s : State) : Result := .next s

/-- 9XYN (R117); N has no part in it. -/
def execSneReg (x y : RegIdx) (_n : Nibble) (s : State) : Result := .next (s.skipIf (s.reg x != s.reg y))

/-- 9XYN with N ≠ 0 under STRICT_59_LOW_NIBBLE (spec/30_encoding.md R78). -/
def execNop9XYN (_x _y : RegIdx) (_n : Nibble) (s : State) : Result := .next s

/-- JUMP_OFFSET_USES_VX (R118): the value given, else the free value (log 2). -/
def State.usesVx (s : State) : Bool := s.cfg.jumpOffsetUsesVx.getD Config.jumpOffsetToggle

/-- The offset BNNN adds: Vx in quirk mode, V0 in legacy mode (R118). -/
def State.jumpOffset (s : State) (nnn : Addr) : Byte :=
  if s.usesVx then s.reg (regOfAddr nnn) else s.reg v0

/-- BNNN (R118): the exact sum, not masked to 12 bits; it is below 2^16. -/
def execJpOff (nnn : Addr) (s : State) : Result :=
  .next (s.setPc (zextAddr nnn + zextByte (s.jumpOffset nnn)))

end Sys2Proof.Machine
end

