-- ==== Sys2Proof/Machine/Display.lean ====
section
/-! DEFINITION. The display instructions (spec/40_display.md): 00E0 and DXYN. -/

namespace Sys2Proof.Machine

/-- 00E0: every pixel false (R100). -/
def execCls (s : State) : Result := .next { s with fb := blankScreen }

/-- One set sprite bit at column `x`, row `y` (R101): a pixel off the screen is dropped; a pixel that
was on goes off and sets VF, one that was off goes on. -/
def drawPixel (x y : Nat) (s : State) : State :=
  if h : x < 64 ∧ y < 32 then
    let old := s.pixel ⟨x, h.1⟩ ⟨y, h.2⟩
    let s := if old then s.setReg vF 1 else s
    s.setPixel ⟨x, h.1⟩ ⟨y, h.2⟩ (!old)
  else s

/-- One sprite row, its eight columns from the left, `x0` the first column (R101). -/
def drawRow (row : Byte) (x0 y : Nat) (s : State) : State :=
  (List.range 8).foldl (fun s c => if spriteBit row c then drawPixel (x0 + c) y s else s) s

/-- The rows `rs` of a sprite at (`x0`, `y0`) with its bytes from `base` (R101): a row below the screen
ends the drawing, a row whose byte is out of memory is skipped and signalled (R103). -/
def drawRows (x0 y0 base : Nat) : List Nat → State → State
  | [], s => s
  | r :: rs, s =>
    if 31 < y0 + r then s
    else if lastByte < base + r then drawRows x0 y0 base rs (s.signalAor (base + r))
    else drawRows x0 y0 base rs (drawRow (s.byteAt (base + r)) x0 (y0 + r) s)

/-- DXYN (R101): the coordinates are read before VF is cleared. -/
def execDrw (x y : RegIdx) (n : Nibble) (s : State) : Result :=
  .next (drawRows ((s.reg x).toNat % 64) ((s.reg y).toNat % 32) s.indexBase (List.range n.toNat)
    (s.setReg vF 0))

end Sys2Proof.Machine
end

