-- ==== Sys2Proof/Machine/IndexMemory.lean ====
section
/-! DEFINITION. The index register and memory instructions (spec/43_index_memory.md). -/

namespace Sys2Proof.Machine

/-- ANNN (R150). -/
def execLdI (nnn : Addr) (s : State) : Result := .next (s.setI (zextAddr nnn))

/-- The new I of FX1E: I masked to 12 bits, plus Vx, stored unmasked (R152). -/
def State.indexSum (s : State) (x : RegIdx) : Word := (s.I &&& 0x0FFF) + zextByte (s.reg x)

/-- FX1E (R152). -/
def execAddI (x : RegIdx) (s : State) : Result :=
  .next ((s.setI (s.indexSum x)).writeIndexFlag (s.indexSum x))

/-- FX29 (R154): FONT_BASE plus five times Vx, not masked; it is below 2^16. -/
def execLdF (x : RegIdx) (s : State) : Result :=
  .next (s.setI (zextAddr s.cfg.fontBase + 5 * zextByte (s.reg x)))

/-- FX33 (R155): hundreds, tens, ones at ea(0), ea(1), ea(2). -/
def execLdB (x : RegIdx) (s : State) : Result :=
  let v := s.reg x
  .next (((s.storeThroughI 0 (hundreds v)).storeThroughI 1 (tens v)).storeThroughI 2 (ones v))

/-- FX55 (R156): V0 to Vx to ea(0) to ea(x), in order; I stays. -/
def execStRegs (x : RegIdx) (s : State) : Result :=
  .next ((regsUpTo x).foldl (fun t k => t.storeThroughI k.val (s.reg k)) s)

/-- FX65 (R157): V0 to Vx from ea(0) to ea(x), in order; I stays. -/
def execLdRegs (x : RegIdx) (s : State) : Result :=
  .next ((regsUpTo x).foldl (fun t k => t.loadThroughI k) s)

end Sys2Proof.Machine
end

