-- ==== Sys2Proof/Machine/TimersInput.lean ====
section
/-! DEFINITION. Timer and keypad instructions (spec/44_timers_input.md). -/

namespace Sys2Proof.Machine

/-- EX9E (R170). -/
def execSkp (x : RegIdx) (s : State) : Result := .next (s.skipIf (s.keyHeld (s.reg x)))

/-- EXA1 (R171). -/
def execSknp (x : RegIdx) (s : State) : Result := .next (s.skipIf (!s.keyHeld (s.reg x)))

/-- EXNN with an unrecognized NN (R178). -/
def execNopE (_x : RegIdx) (_nn : Byte) (s : State) : Result := .next s

/-- FX07 (R172). -/
def execLdVxDt (x : RegIdx) (s : State) : Result := .next (s.setReg x s.DT)

/-- FX15 (R173). -/
def execLdDtVx (x : RegIdx) (s : State) : Result := .next { s with DT := s.reg x }

/-- FX18 (R174). -/
def execLdStVx (x : RegIdx) (s : State) : Result := .next { s with ST := s.reg x }

/-- The sixteen keys, lowest first. -/
def allKeys : List Key := (List.range 16).map (Fin.ofNat 16)

/-- A key that the poll reports: latched and now released (R176). -/
def State.released (s : State) (k : Key) : Bool := !s.isHeld k && s.latch[k.val]

/-- The key PollRelease reports: the lowest one latched and now released (R176; log 17). -/
def State.releasedKey (s : State) : Option Key := allKeys.find? s.released

/-- Every key now held is latched (R176). -/
def State.latchHeld (s : State) : State :=
  { s with latch := Vector.ofFn fun k => s.latch[k.val] || s.held[k.val] }

/-- The latches are reset for the next wait (R176). -/
def State.clearLatches (s : State) : State := { s with latch := noKeys }

/-- PollRelease() (R176): the key reported, if any, and the state with its latches updated. -/
def State.pollRelease (s : State) : Option Key × State :=
  match s.releasedKey with
  | some k => (some k, s.clearLatches)
  | none => (none, s.latchHeld)

/-- FX0A (R175): a reported key goes to Vx; with none, pc goes back to this instruction. -/
def execLdVxK (x : RegIdx) (s : State) : Result :=
  match s.pollRelease with
  | (some k, t) => .next (t.setReg x (BitVec.ofNat 8 k.val))
  | (none, t) => .next (t.setPc t.instrAddr)

/-- FXNN with an unrecognized NN (R178). -/
def execNopF (_x : RegIdx) (_nn : Byte) (s : State) : Result := .next s

end Sys2Proof.Machine
end

