-- ==== Sys2Proof/Machine/Agents.lean ====
section
/-! DEFINITION. The agents that move the machine: the Executor (spec/30_encoding.md R76), the Timer Ticker
(spec/60_exceptions.md R210), and the host where it sets the keys (R213); and whose turn it is (log 4). -/

namespace Sys2Proof.Machine

/-- Every write of fetch: pc is advanced before the instruction runs (spec/30_encoding.md R76). -/
def State.advance (s : State) : State := s.setPc (s.pc + 2)

/-- One Executor step (R76). A halted Executor has no step (spec/60_exceptions.md R201); a pc above
0x0FFE is the fatal ProgramCounterOutOfBounds, before any byte is read (R202). -/
def executorStep (s : State) : Result :=
  match s.halted with
  | some kind => .fault (.executorHalted kind)
  | none =>
    if lastFetch < s.pc.toNat then .next (s.raiseFatal .pcOutOfBounds s.pc)
    else exec s.fetched s.advance

/-- A timer that is not 0 goes down by 1 (R210). -/
def tickTimer (t : Byte) : Byte := if t = 0 then 0 else t - 1

/-- One tick of the Timer Ticker (R210). -/
def State.tick (s : State) : State := { s with DT := tickTimer s.DT, ST := tickTimer s.ST }

/-- The host sets the key state (R213). -/
def State.setKeys (s : State) (held : KeySet) : State := { s with held := held }

/-- One move of the machine: the turn at the head of the schedule is taken; with none scheduled the
Executor moves. An Executor turn of a halted machine is passed over, as the frame loop of R218 does
("if halted == none: Step()"). -/
def takeTurn (s : State) : Result :=
  match s.schedule with
  | [] => executorStep s
  | .executor :: rest =>
    if s.halted.isSome then .next { s with schedule := rest } else executorStep { s with schedule := rest }
  | .tick :: rest => .next ({ s with schedule := rest } : State).tick
  | .keys held :: rest => .next (({ s with schedule := rest } : State).setKeys held)

/-- The schedule with the Executor's turn at its head. -/
def executorNext : List Turn → List Turn
  | [] => []
  | .executor :: rest => .executor :: rest
  | turns => .executor :: turns

end Sys2Proof.Machine
end

