-- ==== Sys2Proof/Machine/Step.lean ====
section
/-! DEFINITION. One step of the machine, and the placing of a word where the next step fetches. -/

namespace Sys2Proof.Machine

/-- One step: the next turn is taken. -/
def step : State → Host.Outcome State Fault Refusal := takeTurn

/-- The state with the table's word stored where `step` fetches its next instruction, the Executor's
turn next (log 11). -/
def State.withFetchWord (s : State) (nbits w : Nat) : State :=
  { s.placeWord (tableWord nbits w) with schedule := executorNext s.schedule }

end Sys2Proof.Machine
end

