-- ==== Sys2Proof/Machine/Boot.lean ====
section
/-! DEFINITION. Reset as the construction of a machine from a configuration and a program
(spec/70_reset_and_hazards.md R230, spec/60_exceptions.md R217). -/

namespace Sys2Proof.Machine

/-- The memory that holds zero everywhere: the cells that would read as the default font do not. -/
def zeroMemory : Memory :=
  Memory.writeBytes [] Config.default.fontBase.toNat (List.replicate Config.defaultFont.length 0)

/-- The longest program that fits above PROGRAM_BASE (spec/20_memory.md R53). -/
def programRoom (cfg : Config) : Nat := Config.memSize - cfg.programBase.toNat

/-- The memory after the font and then the program are loaded (R230). -/
def loadedMemory (cfg : Config) (program : List Byte) : Memory :=
  (zeroMemory.writeBytes cfg.fontBase.toNat cfg.fontTable).writeBytes cfg.programBase.toNat program

/-- Reset(program, config) (R230): nothing when the loader refuses the program, which is longer than
the memory above PROGRAM_BASE (R53). -/
def State.construct (cfg : Config) (program : List Byte) : Option State :=
  if programRoom cfg < program.length then none
  else some { State.reset with
    pc := cfg.programBase.setWidth 16
    stack := List.replicate cfg.stackCapacity 0
    mem := loadedMemory cfg program
    cfg := cfg }

end Sys2Proof.Machine
end

