-- ==== Sys2Proof/Machine/Frame.lean ====
section
/-! DEFINITION. The host's frame (spec/60_exceptions.md R218) as a run of the machine, and what the host
reads after it (R214, R215). Nothing in `step` depends on this file (log 15). -/

namespace Sys2Proof.Machine

/-- `k` steps, stopping at the first that does not answer a next state. -/
def runTurns : Nat → State → Result
  | 0, s => .next s
  | k + 1, s =>
    match step s with
    | .next t => runTurns k t
    | .fault f => .fault f
    | .refused r => .refused r

/-- What the host and the Ticker bring to one frame (R218). -/
structure FrameInput where
  /-- The key state the host sets before the batch (R213). -/
  held : KeySet
  /-- The "should stop" flag (R218). -/
  stop : Bool
  /-- The ticks that come just before the first Executor turn of the batch. There is always a first one:
  INSTRUCTIONS_PER_FRAME is at least 1 (R216, R218). -/
  ticksFirst : Nat
  /-- For each Executor turn after the first, the ticks that come just before it. -/
  ticksNext : List Nat
  /-- The ticks that come after the batch. -/
  ticksAfter : Nat
deriving DecidableEq, Repr

/-- For each Executor turn of the batch, the ticks that come just before it. -/
def FrameInput.ticks (f : FrameInput) : List Nat := f.ticksFirst :: f.ticksNext

/-- INSTRUCTIONS_PER_FRAME, which the host chooses for each frame (spec/00_scope.md R9, R216, R220). -/
def FrameInput.instructionsPerFrame (f : FrameInput) : Nat := f.ticks.length

/-- The turns of a batch: before each Executor turn its ticks (R211, R218). -/
def batchTurns : List Nat → List Turn
  | [] => []
  | k :: ks => List.replicate k .tick ++ .executor :: batchTurns ks

/-- The turns of a frame, in order. -/
def FrameInput.turns (f : FrameInput) : List Turn :=
  .keys f.held :: (batchTurns f.ticks ++ List.replicate f.ticksAfter .tick)

/-- Frame() (R218): nothing when the host stops the run, else the outcome of the frame's turns. -/
def frame (f : FrameInput) (s : State) : Option Result :=
  if f.stop then none else some (runTurns f.turns.length { s with schedule := f.turns })

/-- The audio gate the host samples after a frame (R215). -/
def State.audioGate (s : State) : Bool := s.ST != 0

/-- What the host tells its tone generator: the gate, when it differs from the previous sample (R215). -/
def gatePush (previous : Bool) (s : State) : Option Bool :=
  if s.audioGate = previous then none else some s.audioGate

/-- What the display sink reads (R214). -/
def State.display (s : State) : Framebuffer := s.fb

end Sys2Proof.Machine
end

