-- ==== Sys2Proof/Safety.lean ====
section
/-! DEFINITION. What counts as a safe run, in the terms the statements use: the invariants of the state, the
moves of the agents in any order, what an instruction leaves alone, and closed forms of what the spec
writes as loops. -/

namespace Sys2Proof.Machine

/-! ## Invariants -/

/-- The largest pc an instruction can leave (spec/10_state.md R27). -/
def maxPc : Nat := 0x10FE

/-- The invariant of the state, over every configuration. -/
structure State.Inv (s : State) : Prop where
  /-- Memory is in its canonical form. -/
  mem_wf : s.mem.wf = true
  /-- There are STACK_CAPACITY slots (R28). -/
  stack_length : s.stack.length = s.cfg.stackCapacity
  /-- 0 ≤ sp ≤ STACK_CAPACITY (R28). -/
  sp_le : s.sp ≤ s.cfg.stackCapacity
  /-- pc never exceeds 0x10FE (R27). -/
  pc_le : s.pc.toNat ≤ maxPc
  /-- A return address is at most 0x1000, the one after 0xFFE (spec/41_control_flow.md R111). -/
  slot_le : ∀ a ∈ s.stack, a.toNat ≤ 0x1000
  /-- I is at most the largest address FX29 can leave (spec/10_state.md R24). -/
  index_le : s.I.toNat ≤ 0x0FFF + 5 * 255
  /-- The status is set exactly when an address has been recorded (R35). -/
  aor_iff : s.aor = true ↔ s.aorLog ≠ []
  /-- Only addresses just above memory are ever recorded (spec/43_index_memory.md R151). -/
  aor_range : ∀ a ∈ s.aorLog, 0x1000 ≤ a ∧ a ≤ 0x100E
  /-- A halted machine's pc is the faulting instruction's (spec/60_exceptions.md R201). -/
  halted_pc : s.halted.isSome = true → s.pc = s.faultPc

/-- The Executor is in a key wait: its next instruction is FX0A (spec/44_timers_input.md R175). -/
def State.waiting (s : State) : Prop :=
  s.halted = none ∧ s.pc.toNat ≤ lastFetch ∧ ∃ x, s.fetched = .ldVxK x

/-- The latches are all false whenever no wait is in progress (R179). -/
def State.LatchInv (s : State) : Prop := (∃ k : Fin 16, s.latch[k.val] = true) → s.waiting

/-- A run so far without an error condition (spec/60_exceptions.md R205). -/
def State.clean (s : State) : Prop := s.halted = none ∧ s.aor = false

/-! ## Moves in any order -/

/-- One move of one agent, whichever it is (spec/00_scope.md R17, spec/60_exceptions.md R211, R213). -/
inductive Move : State → State → Prop where
  /-- An Executor step. -/
  | executor {s t : State} (h : executorStep s = .next t) : Move s t
  /-- A tick. -/
  | tick (s : State) : Move s s.tick
  /-- The host sets the keys. -/
  | keys (s : State) (held : KeySet) : Move s (s.setKeys held)

/-- Any number of moves. -/
inductive Moves : State → State → Prop where
  /-- No move. -/
  | refl (s : State) : Moves s s
  /-- One more move. -/
  | snoc {s t u : State} (h : Moves s t) (m : Move t u) : Moves s u

/-- Any number of moves, none of which leaves fewer than `k` entries on the stack: code with balanced
calls and returns (spec/41_control_flow.md R120). -/
inductive MovesAbove (k : Nat) : State → State → Prop where
  /-- No move. -/
  | refl (s : State) : MovesAbove k s s
  /-- One more move. -/
  | snoc {s t u : State} (h : MovesAbove k s t) (m : Move t u) (hk : k ≤ u.sp) : MovesAbove k s u

/-- The state with another schedule. -/
def State.withSchedule (s : State) (turns : List Turn) : State := { s with schedule := turns }

/-- It is the Executor's turn and it has a step. -/
def State.executorTurn (s : State) (rest : List Turn) : Prop :=
  s.halted = none ∧ (s.schedule = [] ∧ rest = [] ∨ s.schedule = .executor :: rest)

/-! ## What an instruction leaves alone -/

/-- Every byte of memory reads as before. -/
def SameBytes (s t : State) : Prop := ∀ a, t.byteAt a = s.byteAt a

/-- Every register but Vx holds what it held. -/
def SameRegsBut (x : RegIdx) (s t : State) : Prop := ∀ y, y ≠ x → t.reg y = s.reg y

/-- `i` completes with `v` in Vx; every other register, every byte of memory and everything else in
the state is as before (pc stays at the instruction's address plus 2). -/
def WritesReg (i : Instr) (x : RegIdx) (v : State → Byte) : Prop :=
  ∀ s, ∃ t, exec i s = .next t ∧ t.reg x = v s ∧ SameRegsBut x s t ∧ SameBytes s t ∧ t = { s with V := t.V }

/-- `i` completes with the result in Vx and the flag in VF; where x is F, VF ends with the one that
FLAG_WRITE_LAST says is written last. Everything else is as before. -/
def WritesResultAndFlag (i : Instr) (x : RegIdx) (res : State → Nat) (flag : State → Prop) : Prop :=
  ∀ s, ∃ t, exec i s = .next t ∧
    (x ≠ vF ∨ s.cfg.flagWriteLast = false → (t.reg x).toNat = res s) ∧
    (x ≠ vF ∨ s.cfg.flagWriteLast = true → (flag s → t.reg vF = 1) ∧ (¬ flag s → t.reg vF = 0)) ∧
    (∀ y, y ≠ x → y ≠ vF → t.reg y = s.reg y) ∧ SameBytes s t ∧ t = { s with V := t.V }

/-- `i` completes with pc moved on by one more word exactly when `c` holds, and nothing else changed. -/
def SkipsWhen (i : Instr) (c : State → Prop) : Prop :=
  ∀ s, ∃ t, exec i s = .next t ∧ (c s → t.pc = s.pc + 2) ∧ (¬ c s → t.pc = s.pc) ∧ SameBytes s t ∧
    t = { s with pc := t.pc }

/-- The offsets below `n` whose address through I lies outside memory, in order. -/
def State.outside (s : State) (n : Nat) : List Nat := (List.range n).filter fun k => lastByte < s.ea k

/-! ## Closed forms -/

/-- The left column of a sprite drawn at (Vx, Vy) (spec/40_display.md R101). -/
def State.spriteCol (s : State) (x : RegIdx) : Nat := (s.reg x).toNat % 64

/-- Its top row (R101). -/
def State.spriteRow (s : State) (y : RegIdx) : Nat := (s.reg y).toNat % 32

/-- The sprite at (Vx, Vy), `n` rows high, sets the pixel at column `px`, row `py`: the pixel lies in it,
its row's byte lies in memory, and the row's bit for that column is 1 (R101, R103). -/
def State.spriteSets (s : State) (x y : RegIdx) (n : Nibble) (px : Fin 64) (py : Fin 32) : Bool :=
  decide (s.spriteRow y ≤ py.val) && decide (py.val < s.spriteRow y + n.toNat) &&
    decide (s.spriteCol x ≤ px.val) && decide (px.val < s.spriteCol x + 8) &&
    decide (s.ea (py.val - s.spriteRow y) ≤ lastByte) &&
    spriteBit (s.byteAt (s.ea (py.val - s.spriteRow y))) (px.val - s.spriteCol x)

/-- The rows of such a sprite that lie on the screen. -/
def State.rowsOnScreen (s : State) (y : RegIdx) (n : Nibble) : Nat := min n.toNat (32 - s.spriteRow y)

/-- The instructions that do nothing but pass (spec/30_encoding.md R77, the NOP rows). -/
def isNop : Instr → Bool
  | .sys _ | .nopE _ _ | .nopF _ _ | .nop5XYN _ _ _ | .nop9XYN _ _ _ => true
  | .nop8XY8 _ _ | .nop8XY9 _ _ | .nop8XYA _ _ | .nop8XYB _ _ | .nop8XYC _ _ => true
  | .nop8XYD _ _ | .nop8XYF _ _ => true
  | .cls | .ret | .jp _ | .call _ | .seImm _ _ | .sneImm _ _ | .seReg _ _ _ | .ldImm _ _ => false
  | .addImm _ _ | .ldReg _ _ | .orReg _ _ | .andReg _ _ | .xorReg _ _ | .addReg _ _ => false
  | .subReg _ _ | .shrReg _ _ | .subnReg _ _ | .shlReg _ _ | .sneReg _ _ _ | .ldI _ => false
  | .jpOff _ | .rnd _ _ | .drw _ _ _ | .skp _ | .sknp _ | .ldVxDt _ | .ldVxK _ => false
  | .ldDtVx _ | .ldStVx _ | .addI _ | .ldF _ | .ldB _ | .stRegs _ | .ldRegs _ => false

/-- The unrecognized words, as R78 lists them by their nibbles and low byte. -/
def unrecognized (strict : Bool) (w : Nat) : Bool :=
  let family := w / 4096
  let n := w % 16
  let nn := w % 256
  (family == 0 && w != 0x00E0 && w != 0x00EE) ||
    (family == 8 && [0x8, 0x9, 0xA, 0xB, 0xC, 0xD, 0xF].contains n) ||
    (family == 0xE && !([0x9E, 0xA1].contains nn)) ||
    (family == 0xF && !([0x07, 0x0A, 0x15, 0x18, 0x1E, 0x29, 0x33, 0x55, 0x65].contains nn)) ||
    (strict && (family == 5 || family == 9) && n != 0)

end Sys2Proof.Machine
end

