-- ==== Sys2Proof/Certificates/Slice0/Obligations.lean ====
section
/-! DEFINITION. The statements for the provers. A statement about `exec` is about a state after fetch: `s.pc`
there is the instruction's address plus 2 (spec/10_state.md R25; log 7). -/

open Sys2Proof Sys2Proof.Machine

/-! ## Encoding -/

/-- Decoding the word of a well-formed instruction gives the instruction back, whatever its operands
(spec/30_encoding.md, formats and opcode map). -/
def Obligations.DecodeInvertsEncode : Prop :=
  ∀ (strict : Bool) (i : Instr), i.wf strict = true → decodeWord strict (encode i) = i

/-- Encoding what a word decodes to gives the word back: no bit of any word is dropped
(spec/30_encoding.md, formats and opcode map). -/
def Obligations.EncodeInvertsDecode : Prop :=
  ∀ (strict : Bool) (w : Word), encode (decodeWord strict w) = w

/-- R74: every two bytes decode, without error, to a well-formed instruction. -/
def Obligations.DecoderIsTotalOnEveryWord : Prop :=
  ∀ (strict : Bool) (hi lo : Byte) (rest : List Byte),
    ∃ i, decodeBytes strict (hi :: lo :: rest) = .ok (i, rest) ∧ i.wf strict = true

/-- The words that decode to a no-operation are the unrecognized ones, and an Executor step at one of
them advances pc by 2 and does nothing else (spec/30_encoding.md, section 5). Whose turn it is, and that
the turn is used up, is the model's schedule (log 4). -/
def Obligations.UnrecognizedWordsOnlyAdvancePc : Prop :=
  (∀ (strict : Bool) (w : Word), isNop (decodeWord strict w) = unrecognized strict w.toNat) ∧
  ∀ (s : State) (rest : List Turn), s.executorTurn rest → s.pc.toNat ≤ lastFetch →
    unrecognized s.cfg.strict59 (s.wordAt s.pc.toNat).toNat = true →
    step s = .next { s with pc := s.pc + 2, schedule := rest }

/-- Seven words written out from the patterns of spec/30_encoding.md decode to what they stand for, 5121 for
both values of STRICT_59_LOW_NIBBLE: its two clauses rest on the spec's decision D18 and on the model's
constructor for the strict word (log 12), the patterns on its general knowledge G1 (log 14). -/
def Obligations.WordsOfTheSpecDecode : Prop :=
  decodeWord false 0x00E0 = .cls ∧ decodeWord false 0x2300 = .call 0x300 ∧
  decodeWord false 0x8126 = .shrReg 1 2 ∧ decodeWord false 0xF155 = .stRegs 1 ∧
  decodeWord false 0xD015 = .drw 0 1 5 ∧ decodeWord false 0xE19E = .skp 1 ∧
  decodeWord false 0x5121 = .seReg 1 2 1 ∧ decodeWord true 0x5121 = .nop5XYN 1 2 1

/-! ## Fetch, the agents' turns, errors at fetch -/

/-- A step runs the decoded instruction: on the Executor's turn, with pc in range, `step` is `exec` of the
instruction whose high byte is at pc and whose low byte is at pc + 1, on the state with pc advanced by
2 and the turn taken. The turn is the model's (log 4). -/
def Obligations.StepRunsTheDecodedInstruction : Prop :=
  ∀ (s : State) (rest : List Turn) (w : Word), s.executorTurn rest → s.pc.toNat ≤ 0x0FFE →
    w.toNat = 256 * (s.byteAt s.pc.toNat).toNat + (s.byteAt (s.pc.toNat + 1)).toNat →
    step s = exec (decodeWord s.cfg.strict59 w) { s with pc := s.pc + 2, schedule := rest }

/-- A fetch with pc above 0x0FFE is the fatal ProgramCounterOutOfBounds: nothing but the status is
written (the bound and the precise halt are the spec's decisions D7 and D8; log 6, log 13). -/
def Obligations.FetchOutOfBoundsIsFatal : Prop :=
  ∀ (s : State) (rest : List Turn), s.executorTurn rest → 0x0FFE < s.pc.toNat →
    step s = .next { s with halted := some .pcOutOfBounds, faultPc := s.pc, schedule := rest }

/-- The word placed by `withFetchWord` is the one the next step runs, and only its two bytes of memory
change (the model's stand-in for a load, log 11). -/
def Obligations.PlacedWordIsFetchedAndRun : Prop :=
  ∀ (s : State) (w : Nat) (rest : List Turn), w < 65536 → s.mem.wf = true → s.halted = none →
    s.pc.toNat ≤ 0x0FFE →
    (s.schedule = .executor :: rest ∨ s.schedule = rest ∧ ∀ r, rest ≠ .executor :: r) →
    ∃ m : Memory, step (s.withFetchWord 16 w) =
        exec (decodeWord s.cfg.strict59 (BitVec.ofNat 16 w))
          { s with pc := s.pc + 2, mem := m, schedule := rest } ∧
      ∀ a, (m.read a).toNat = if a = s.pc.toNat then w / 256 else if a = s.pc.toNat + 1 then w % 256
        else (s.byteAt a).toNat

/-- A halted Executor has no step: with nothing scheduled the machine is stuck, and a scheduled Executor
turn is passed over with nothing changed (the fault's name and the passing over are the model's, log 6). -/
def Obligations.HaltedExecutorTakesNoStep : Prop :=
  ∀ (s : State) (kind : FatalKind), s.halted = some kind →
    (s.schedule = [] → step s = .fault (.executorHalted kind)) ∧
    (∀ rest, s.schedule = .executor :: rest → step s = .next { s with schedule := rest })

/-- A halted machine stays as it is: whatever turns it takes, only the timers, the key input and the
schedule change (the stickiness is the spec's decision D8). -/
def Obligations.HaltIsStickyAndFreezesTheMachine : Prop :=
  ∀ (s t : State), s.halted.isSome = true → step s = .next t →
    t = { s with DT := t.DT, ST := t.ST, held := t.held, schedule := s.schedule.tail }

/-- A tick takes 1 from each timer that is not 0 and does nothing else (spec/60_exceptions.md, section 3).
When it comes, and that its turn is used up, is the model's schedule (log 4). -/
def Obligations.TickDecrementsEachTimerTowardZero : Prop :=
  ∀ (s : State) (rest : List Turn), s.schedule = .tick :: rest → ∃ t, step s = .next t ∧
    t.DT.toNat = s.DT.toNat - 1 ∧ t.ST.toNat = s.ST.toNat - 1 ∧
    t = { s with DT := t.DT, ST := t.ST, schedule := rest }

/-- Under ticks alone a timer falls once a tick until 0 and then stays at 0 (spec/60_exceptions.md,
section 3). -/
def Obligations.TimersFallOncePerTickAndStayAtZero : Prop :=
  ∀ (s : State) (n : Nat), ∃ t, runTurns n (s.withSchedule (List.replicate n .tick)) = .next t ∧
    t.DT.toNat = s.DT.toNat - n ∧ t.ST.toNat = s.ST.toNat - n ∧
    t = { s with DT := t.DT, ST := t.ST, schedule := [] }

/-! ## Register arithmetic -/

/-- R132, R134 to R137: load immediate, assign, or, and, exclusive or complete with the result in Vx and
nothing else changed, VF included. -/
def Obligations.LoadsAndLogicWriteVx : Prop :=
  ∀ (x y : RegIdx) (nn : Byte),
    WritesReg (.ldImm x nn) x (fun _ => nn) ∧
    WritesReg (.ldReg x y) x (fun s => s.reg y) ∧
    WritesReg (.orReg x y) x (fun s => s.reg x ||| s.reg y) ∧
    WritesReg (.andReg x y) x (fun s => s.reg x &&& s.reg y) ∧
    WritesReg (.xorReg x y) x (fun s => s.reg x ^^^ s.reg y)

/-- R133: 7XNN completes with (Vx + NN) mod 256 in Vx and nothing else changed, VF included. -/
def Obligations.AddImmediateWrapsWithoutFlag : Prop :=
  ∀ (x : RegIdx) (nn : Byte),
    WritesReg (.addImm x nn) x (fun s => BitVec.ofNat 8 (((s.reg x).toNat + nn.toNat) % 256))

/-- 8XY4, 8XY5 and 8XY7 complete with the result modulo 256 in Vx and the flag in VF: the carry, and the
strict comparisons x > y and y > x. Where X is F the order of the two writes decides, for both values
of FLAG_WRITE_LAST (the spec's decision D11; log 1). -/
def Obligations.AddAndSubtractWriteResultAndFlag : Prop :=
  ∀ (x y : RegIdx),
    WritesResultAndFlag (.addReg x y) x (fun s => ((s.reg x).toNat + (s.reg y).toNat) % 256)
      (fun s => 255 < (s.reg x).toNat + (s.reg y).toNat) ∧
    WritesResultAndFlag (.subReg x y) x (fun s => (256 + (s.reg x).toNat - (s.reg y).toNat) % 256)
      (fun s => (s.reg y).toNat < (s.reg x).toNat) ∧
    WritesResultAndFlag (.subnReg x y) x (fun s => (256 + (s.reg y).toNat - (s.reg x).toNat) % 256)
      (fun s => (s.reg x).toNat < (s.reg y).toNat)

/-- 8XY6 and 8XYE complete with the shifted value in Vx and the bit shifted out in VF; the value is Vy's
with SHIFT_COPIES_VY and Vx's without. Where X is F the order of the two writes decides (D11; log 1). -/
def Obligations.ShiftsWriteResultAndBitShiftedOut : Prop :=
  ∀ (x y : RegIdx),
    let v := fun s : State => (if s.cfg.shiftCopiesVy then s.reg y else s.reg x).toNat
    WritesResultAndFlag (.shrReg x y) x (fun s => v s / 2) (fun s => v s % 2 = 1) ∧
    WritesResultAndFlag (.shlReg x y) x (fun s => 2 * v s % 256) (fun s => 128 ≤ v s)

/-- CXNN completes with the byte drawn, masked with NN, in Vx. Bits of Vx outside NN are 0, and
NN = 0xFF gives the draw itself (spec/42_alu.md). That the draws are a free value over a counter is the
model's (log 3). -/
def Obligations.RandomByteIsMaskedWithImmediate : Prop :=
  ∀ (x : RegIdx) (nn : Byte) (s : State), ∃ t, exec (.rnd x nn) s = .next t ∧
    t.reg x = Config.draw8 s.draws &&& nn ∧ (∀ b, nn.getLsbD b = false → (t.reg x).getLsbD b = false) ∧
    (nn = 0xFF → t.reg x = Config.draw8 s.draws) ∧
    t.draws = s.draws + 1 ∧ SameRegsBut x s t ∧ SameBytes s t ∧ t = { s with V := t.V, draws := t.draws }

/-- Every no-operation completes and changes nothing; pc stays at the address plus 2 (spec/41_control_flow.md,
spec/42_alu.md, spec/44_timers_input.md). So do the words 5XYN and 9XYN that STRICT_59_LOW_NIBBLE makes
no-operations (the spec's decision D18; their constructors are the model's, log 12). -/
def Obligations.NopsCompleteAndChangeNothing : Prop :=
  ∀ (i : Instr) (s : State), isNop i = true → exec i s = .next s

/-! ## Control flow -/

/-- R112, R150: 1NNN completes with NNN in pc, ANNN with NNN in I, zero-extended, nothing else changed. -/
def Obligations.JumpAndLoadIndexTakeTheAddress : Prop :=
  ∀ (nnn : Addr) (s : State),
    (∃ t, exec (.jp nnn) s = .next t ∧ t.pc.toNat = nnn.toNat ∧ SameBytes s t ∧ t = { s with pc := t.pc }) ∧
    (∃ t, exec (.ldI nnn) s = .next t ∧ t.I.toNat = nnn.toNat ∧ SameBytes s t ∧ t = { s with I := t.I })

/-- R114, R115: 3XNN and 4XNN complete, and pass one more word exactly when the comparison holds. -/
def Obligations.ImmediateSkipsPassOneWord : Prop :=
  ∀ (x : RegIdx) (nn : Byte),
    SkipsWhen (.seImm x nn) (fun s => s.reg x = nn) ∧ SkipsWhen (.sneImm x nn) (fun s => s.reg x ≠ nn)

/-- 5XYN and 9XYN complete, and pass one more word exactly when the comparison holds; the low nibble N plays
no part (the spec's decision D18). -/
def Obligations.RegisterSkipsPassOneWord : Prop :=
  ∀ (x y : RegIdx) (n : Nibble),
    SkipsWhen (.seReg x y n) (fun s => s.reg x = s.reg y) ∧
    SkipsWhen (.sneReg x y n) (fun s => s.reg x ≠ s.reg y)

/-- EX9E and EXA1 skip on the key named by Vx being held, and not held; a Vx above 0x0F names no key and
counts as not held (the spec's decision D14). -/
def Obligations.KeySkipsQueryTheHeldKeys : Prop :=
  ∀ (x : RegIdx),
    SkipsWhen (.skp x) (fun s => ∃ k : Key, k.val = (s.reg x).toNat ∧ s.held[k.val] = true) ∧
    SkipsWhen (.sknp x) (fun s => ∀ k : Key, k.val = (s.reg x).toNat → s.held[k.val] = false)

/-- BNNN completes with pc = NNN plus the offset, not masked: V0 in legacy mode, Vx with X = NNN[11:8] in
quirk mode; where the mode is not given it is one of the two (decisions D19 and D20; log 2). -/
def Obligations.JumpWithOffsetAddsTheSelectedRegister : Prop :=
  ∀ (nnn : Addr) (x : RegIdx) (s : State), x.val = nnn.toNat / 256 → ∃ t, exec (.jpOff nnn) s = .next t ∧
    (s.cfg.jumpOffsetUsesVx = some false → t.pc.toNat = nnn.toNat + (s.reg 0).toNat) ∧
    (s.cfg.jumpOffsetUsesVx = some true → t.pc.toNat = nnn.toNat + (s.reg x).toNat) ∧
    (s.cfg.jumpOffsetUsesVx = none →
      t.pc.toNat = nnn.toNat + (s.reg 0).toNat ∨ t.pc.toNat = nnn.toNat + (s.reg x).toNat) ∧
    SameBytes s t ∧ t = { s with pc := t.pc }

/-- 2NNN with room on the stack completes: the pc after fetch goes to slot sp, sp goes up by 1, pc is NNN;
every other slot and everything else is as before (spec/41_control_flow.md, spec/10_state.md section 5).
That every slot exists is part of the model's invariant. -/
def Obligations.CallPushesTheReturnAddress : Prop :=
  ∀ (nnn : Addr) (s : State), s.stack.length = s.cfg.stackCapacity → s.sp < s.cfg.stackCapacity →
    ∃ t, exec (.call nnn) s = .next t ∧ t.slot s.sp = s.pc ∧ (∀ k, k ≠ s.sp → t.slot k = s.slot k) ∧
      t.sp = s.sp + 1 ∧ t.pc.toNat = nnn.toNat ∧ SameBytes s t ∧
      t = { s with stack := t.stack, sp := t.sp, pc := t.pc }

/-- 00EE with an entry on the stack completes: pc is the top entry, sp goes down by 1, nothing else
changes (spec/41_control_flow.md, spec/10_state.md section 5). -/
def Obligations.ReturnPopsTheProgramCounter : Prop :=
  ∀ (s : State), 0 < s.sp → ∃ t, exec .ret s = .next t ∧ t.pc = s.slot (s.sp - 1) ∧ t.sp = s.sp - 1 ∧
    SameBytes s t ∧ t = { s with pc := t.pc, sp := t.sp }

/-- 00EE with an empty stack and 2NNN with a full one are fatal, and precise: nothing is written but the
status, and pc is the instruction's address again (overflow is the spec's decision D6, the precise halt
its D8; log 6, log 7). -/
def Obligations.StackErrorsAreFatalAndPrecise : Prop :=
  ∀ (s : State) (nnn : Addr),
    (s.sp = 0 → exec .ret s =
      .next { s with pc := s.pc - 2, halted := some .stackUnderflow, faultPc := s.pc - 2 }) ∧
    (s.sp = s.cfg.stackCapacity → exec (.call nnn) s =
      .next { s with pc := s.pc - 2, halted := some .stackOverflow, faultPc := s.pc - 2 })

/-- No other instruction raises a fatal condition, and one that does writes nothing else
(spec/60_exceptions.md, section 1; log 6). -/
def Obligations.OnlyCallAndReturnRaiseAFatalCondition : Prop :=
  ∀ (i : Instr) (s t : State), s.halted = none → exec i s = .next t → t.halted ≠ none →
    ((i = .ret ∧ s.sp = 0 ∧ t.halted = some .stackUnderflow) ∨
      (∃ nnn, i = .call nnn ∧ s.sp = s.cfg.stackCapacity ∧ t.halted = some .stackOverflow)) ∧
    t = { s with pc := s.pc - 2, halted := t.halted, faultPc := s.pc - 2 }

/-! ## Timers -/

/-- FX07 completes with DT in Vx, FX15 with Vx in DT, FX18 with Vx in ST, nothing else changed
(spec/44_timers_input.md; which of FX15 and FX18 writes which timer is the spec's general knowledge G6, log 14). -/
def Obligations.TimerInstructionsCopyBetweenVxAndTimers : Prop :=
  ∀ (x : RegIdx), WritesReg (.ldVxDt x) x (fun s => s.DT) ∧
    (∀ s, ∃ t, exec (.ldDtVx x) s = .next t ∧ t.DT = s.reg x ∧ SameBytes s t ∧ t = { s with DT := t.DT }) ∧
    (∀ s, ∃ t, exec (.ldStVx x) s = .next t ∧ t.ST = s.reg x ∧ SameBytes s t ∧ t = { s with ST := t.ST })

/-! ## Index register and memory -/

/-- FX1E completes with (I mod 4096) + Vx in I, stored unmasked, and sets VF exactly when that reaches
4096 (bit 12); else VF is cleared only with FX1E_CLEARS_VF (the spec's decision D12; log 1). -/
def Obligations.AddToIndexSetsFlagOnBitTwelve : Prop :=
  ∀ (x : RegIdx) (s : State), ∃ t, exec (.addI x) s = .next t ∧
    t.I.toNat = s.I.toNat % 4096 + (s.reg x).toNat ∧
    (4096 ≤ t.I.toNat → t.reg vF = 1) ∧
    (t.I.toNat < 4096 → t.reg vF = if s.cfg.fx1eClearsVf then 0 else s.reg vF) ∧
    SameRegsBut vF s t ∧ SameBytes s t ∧ t = { s with I := t.I, V := t.V }

/-- FX29 completes with FONT_BASE + 5 × Vx in I, Vx not masked (the spec's decision D17), nothing else
changed. -/
def Obligations.FontAddressIsFiveBytesAGlyph : Prop :=
  ∀ (x : RegIdx) (s : State), ∃ t, exec (.ldF x) s = .next t ∧
    t.I.toNat = s.cfg.fontBase.toNat + 5 * (s.reg x).toNat ∧ SameBytes s t ∧ t = { s with I := t.I }

/-- FX33 completes with the decimal digits of Vx, hundreds first, at ea(0), ea(1), ea(2), each stored only
where its address lies in memory; every other byte and everything else but the AOR status is as before,
I included (spec/43_index_memory.md; the skipping is D10). -/
def Obligations.DecimalStoreWritesThreeDigits : Prop :=
  ∀ (x : RegIdx) (s : State), s.mem.wf = true → ∃ t d0 d1 d2, exec (.ldB x) s = .next t ∧
    100 * d0 + 10 * d1 + d2 = (s.reg x).toNat ∧ d1 < 10 ∧ d2 < 10 ∧
    (s.ea 0 ≤ 0x0FFF → (t.byteAt (s.ea 0)).toNat = d0) ∧
    (s.ea 1 ≤ 0x0FFF → (t.byteAt (s.ea 1)).toNat = d1) ∧
    (s.ea 2 ≤ 0x0FFF → (t.byteAt (s.ea 2)).toNat = d2) ∧
    (∀ a, (∀ k, k < 3 → a = s.ea k → 0x0FFF < a) → t.byteAt a = s.byteAt a) ∧
    t = { s with mem := t.mem, aor := t.aor, aorLog := t.aorLog }

/-- FX55 completes with V0 to Vx at ea(0) to ea(x), each stored only where its address lies in memory;
every other byte and everything else but the AOR status is as before, I included
(spec/43_index_memory.md; the skipping is D10). -/
def Obligations.StoreRegistersWritesV0ToVx : Prop :=
  ∀ (x : RegIdx) (s : State), s.mem.wf = true → ∃ t, exec (.stRegs x) s = .next t ∧
    (∀ k : RegIdx, k ≤ x → s.ea k.val ≤ 0x0FFF → t.byteAt (s.ea k.val) = s.reg k) ∧
    (∀ a, (∀ k : RegIdx, k ≤ x → a = s.ea k.val → 0x0FFF < a) → t.byteAt a = s.byteAt a) ∧
    t = { s with mem := t.mem, aor := t.aor, aorLog := t.aorLog }

/-- FX65 completes with V0 to Vx loaded from ea(0) to ea(x); a register whose address lies beyond memory
(D10), or is above x, keeps its value; memory and everything else but the AOR status is as before, I
included (spec/43_index_memory.md). -/
def Obligations.LoadRegistersReadsV0ToVx : Prop :=
  ∀ (x : RegIdx) (s : State), ∃ t, exec (.ldRegs x) s = .next t ∧
    (∀ k : RegIdx, k ≤ x → s.ea k.val ≤ 0x0FFF → t.reg k = s.byteAt (s.ea k.val)) ∧
    (∀ k : RegIdx, (k ≤ x → 0x0FFF < s.ea k.val) → t.reg k = s.reg k) ∧
    SameBytes s t ∧ t = { s with V := t.V, aor := t.aor, aorLog := t.aorLog }

/-- The accesses beyond memory are recorded, in ascending order, and nothing else stops or changes pc: three
bytes of FX33, x + 1 of FX55 and FX65, the rows on the screen of DXYN; no other instruction records
one (spec/60_exceptions.md, section 1; D10; the list of addresses is the model's, log 8). -/
def Obligations.AccessesBeyondMemoryAreRecorded : Prop :=
  ∀ (x y : RegIdx) (n : Nibble) (s : State),
    let records := fun (i : Instr) (count : Nat) => ∃ t, exec i s = .next t ∧
      t.aorLog = s.aorLog ++ (s.outside count).map s.ea ∧
      (t.aor = true ↔ s.aor = true ∨ ∃ k, k < count ∧ 0x0FFF < s.ea k) ∧ t.halted = s.halted ∧ t.pc = s.pc
    records (.ldB x) 3 ∧ records (.stRegs x) (x.val + 1) ∧ records (.ldRegs x) (x.val + 1) ∧
    records (.drw x y n) (s.rowsOnScreen y n) ∧
    ∀ (i : Instr) (t : State), (∀ x, i ≠ .ldB x ∧ i ≠ .stRegs x ∧ i ≠ .ldRegs x) →
      (∀ x y n, i ≠ .drw x y n) → exec i s = .next t → t.aor = s.aor ∧ t.aorLog = s.aorLog

/-- A store is seen by the next fetch: after FX55 has stored Vk and V(k+1) at ea(k) and ea(k+1), a step
that fetches there runs the word they form (spec/20_memory.md, section 7; D29). -/
def Obligations.StoredBytesAreFetched : Prop :=
  ∀ (x k j : RegIdx) (s t u : State) (rest : List Turn) (w : Word), s.mem.wf = true →
    j.val = k.val + 1 → j ≤ x → s.ea j.val ≤ 0x0FFF → exec (.stRegs x) s = .next t →
    u.mem = t.mem → u.executorTurn rest → u.pc.toNat = s.ea k.val →
    w.toNat = 256 * (s.reg k).toNat + (s.reg j).toNat →
    step u = exec (decodeWord u.cfg.strict59 w) { u with pc := u.pc + 2, schedule := rest }

/-- Two memories in canonical form that read the same everywhere are the same data (log 10). -/
def Obligations.EqualMemoriesAreEqualData : Prop :=
  ∀ (m n : Memory), m.wf = true → n.wf = true → (∀ a, m.read a = n.read a) → m = n

/-! ## Display -/

/-- R100: 00E0 completes with every pixel false and nothing else changed. -/
def Obligations.ClearScreenTurnsEveryPixelOff : Prop :=
  ∀ (s : State), ∃ t, exec .cls s = .next t ∧ (∀ px py, t.pixel px py = false) ∧ SameBytes s t ∧
    t = { s with fb := t.fb }

/-- DXYN completes with every pixel flipped that the sprite sets, and no other; VF is 1 if one of those
was on and 0 if none was; every other register, every byte and everything else but the AOR status is
as before (spec/40_display.md; D10, D13, D33). -/
def Obligations.DrawFlipsThePixelsTheSpriteSets : Prop :=
  ∀ (x y : RegIdx) (n : Nibble) (s : State), ∃ t, exec (.drw x y n) s = .next t ∧
    (∀ px py, t.pixel px py = (s.pixel px py ^^ s.spriteSets x y n px py)) ∧
    ((∃ px py, s.spriteSets x y n px py = true ∧ s.pixel px py = true) → t.reg vF = 1) ∧
    ((∀ px py, s.spriteSets x y n px py = true → s.pixel px py = false) → t.reg vF = 0) ∧
    SameRegsBut vF s t ∧ SameBytes s t ∧
    t = { s with V := t.V, fb := t.fb, aor := t.aor, aorLog := t.aorLog }

/-- Drawing the same sprite twice at the same place restores every pixel, and the second draw sets VF
exactly when the first turned on at least one pixel (spec/40_display.md; 90_conflicts.md C8). -/
def Obligations.DrawingTwiceRestoresThePixels : Prop :=
  ∀ (x y : RegIdx) (n : Nibble) (s t u : State), exec (.drw x y n) s = .next t →
    t.spriteCol x = s.spriteCol x → t.spriteRow y = s.spriteRow y → exec (.drw x y n) t = .next u →
    (∀ px py, u.pixel px py = s.pixel px py) ∧
    (u.reg vF = 1 ↔ ∃ px py, s.pixel px py = false ∧ t.pixel px py = true) ∧
    (u.reg vF = 0 ↔ ¬ ∃ px py, s.pixel px py = false ∧ t.pixel px py = true)

/-- Only 00E0 and DXYN write the framebuffer and only DXYN reads it: with another picture, every other
instruction does the same and leaves that picture, and 00E0 does the same (spec/40_display.md). That CXNN
draws the same byte in the two executions compared is the model's (log 3). -/
def Obligations.OnlyDrawReadsAndTwoInstructionsWriteTheDisplay : Prop :=
  ∀ (i : Instr) (s t : State) (f : Framebuffer), (∀ x y n, i ≠ .drw x y n) → exec i s = .next t →
    (i ≠ .cls → t.fb = s.fb ∧ exec i { s with fb := f } = .next { t with fb := f }) ∧
    (i = .cls → exec i { s with fb := f } = .next t)

/-! ## The key wait -/

/-- FX0A completes when a latched key is now released: the lowest such key goes to Vx, every latch is
cleared, pc stays past the instruction, nothing else changes (spec/44_timers_input.md; the lowest key
is the spec's decision D15, log 17). -/
def Obligations.KeyWaitReportsTheLowestReleasedKey : Prop :=
  ∀ (x : RegIdx) (s : State) (k : Key), s.latch[k.val] = true → s.held[k.val] = false →
    (∀ j : Key, j < k → s.latch[j.val] = true → s.held[j.val] = true) →
    ∃ t, exec (.ldVxK x) s = .next t ∧ (t.reg x).toNat = k.val ∧ (∀ j : Key, t.latch[j.val] = false) ∧
      SameRegsBut x s t ∧ SameBytes s t ∧ t = { s with V := t.V, latch := t.latch }

/-- FX0A with no latched key released waits: every held key is latched, pc goes back to the instruction,
nothing else changes (spec/44_timers_input.md). -/
def Obligations.KeyWaitRepeatsUntilARelease : Prop :=
  ∀ (x : RegIdx) (s : State), (∀ j : Key, s.latch[j.val] = true → s.held[j.val] = true) →
    ∃ t, exec (.ldVxK x) s = .next t ∧ t.pc = s.pc - 2 ∧
      (∀ j : Key, t.latch[j.val] = true ↔ s.latch[j.val] = true ∨ s.held[j.val] = true) ∧
      SameBytes s t ∧ t = { s with pc := t.pc, latch := t.latch }

/-- While the keys do not change and every latched key is held, a key wait goes on through any number of
Executor turns and ticks: pc and the registers do not move (spec/44_timers_input.md,
spec/70_reset_and_hazards.md; the turns are the model's, log 4). -/
def Obligations.KeyWaitLastsWhileKeysAreSteady : Prop :=
  ∀ (s : State) (turns : List Turn), s.waiting →
    (∀ k : Key, s.latch[k.val] = true → s.held[k.val] = true) → (∀ h, Turn.keys h ∉ turns) →
    ∃ t, runTurns turns.length (s.withSchedule turns) = .next t ∧ t.waiting ∧ t.pc = s.pc ∧ t.V = s.V ∧
      t.schedule = [] ∧ ∀ k : Key, t.latch[k.val] = true → t.held[k.val] = true

/-! ## Rules of the whole machine -/

/-- Every instruction answers a next state, in every state: none is refused and none stops the machine by
itself (spec/60_exceptions.md: "Everything else silently no-ops"; the fatal halt is a next state, log 6). -/
def Obligations.EveryInstructionAnswersANextState : Prop :=
  ∀ (i : Instr) (s : State), ∃ t, exec i s = .next t

/-- Each resource is written only by the instructions the spec names: I by ANNN, FX1E, FX29; the stack by
2NNN and 00EE; memory by FX33 and FX55; DT by FX15 and ST by FX18; the latches by FX0A; the key input,
the schedule and the parameters by none (spec/10_state.md, spec/20_memory.md section 1). -/
def Obligations.EachResourceHasItsWriters : Prop :=
  ∀ (i : Instr) (s t : State), exec i s = .next t →
    (t.I ≠ s.I → ∃ x nnn, i = .ldI nnn ∨ i = .addI x ∨ i = .ldF x) ∧
    (t.stack ≠ s.stack ∨ t.sp ≠ s.sp → i = .ret ∨ ∃ nnn, i = .call nnn) ∧
    (t.mem ≠ s.mem → ∃ x, i = .ldB x ∨ i = .stRegs x) ∧
    (t.DT ≠ s.DT → ∃ x, i = .ldDtVx x) ∧ (t.ST ≠ s.ST → ∃ x, i = .ldStVx x) ∧
    (t.latch ≠ s.latch → ∃ x, i = .ldVxK x) ∧
    t.held = s.held ∧ t.schedule = s.schedule ∧ t.cfg = s.cfg

/-- pc after an instruction is its address plus 2 except after a skip, a jump, a call, a return or a key
wait (spec/10_state.md, section 4). -/
def Obligations.OnlyControlFlowMovesPc : Prop :=
  ∀ (i : Instr) (s t : State), exec i s = .next t → t.pc ≠ s.pc →
    i = .ret ∨ ∃ x y nn nnn n, i = .jp nnn ∨ i = .call nnn ∨ i = .jpOff nnn ∨ i = .seImm x nn ∨
      i = .sneImm x nn ∨ i = .seReg x y n ∨ i = .sneReg x y n ∨ i = .skp x ∨ i = .sknp x ∨ i = .ldVxK x

/-- VF changes only where an instruction names it as its destination, or as the flag of 8XY4, 8XY5, 8XY6,
8XY7, 8XYE, DXYN and FX1E (spec/10_state.md, section 2). -/
def Obligations.FlagIsWrittenOnlyByTheListedInstructions : Prop :=
  ∀ (i : Instr) (s t : State), exec i s = .next t → t.reg vF ≠ s.reg vF →
    (∃ x y n, i = .addReg x y ∨ i = .subReg x y ∨ i = .shrReg x y ∨ i = .subnReg x y ∨ i = .shlReg x y ∨
      i = .drw x y n ∨ i = .addI x) ∨
    (∃ y nn, i = .ldImm vF nn ∨ i = .addImm vF nn ∨ i = .ldReg vF y ∨ i = .orReg vF y ∨ i = .andReg vF y ∨
      i = .xorReg vF y ∨ i = .rnd vF nn ∨ i = .ldVxDt vF ∨ i = .ldVxK vF ∨ i = .ldRegs vF)

/-- The parameters of a machine never change: not by a step of the Executor, nor by a tick, nor by the host
(spec/00_scope.md, section 4; log 1). -/
def Obligations.ConfigurationIsFixedForLife : Prop :=
  ∀ (s t : State), Moves s t → t.cfg = s.cfg

/-- The invariant is kept by every step, whoever's turn it is: memory in canonical form, the stack within
its capacity, pc at most 0x10FE, return addresses at most 0x1000, AOR recorded exactly when signalled and
only for addresses beyond memory, a halted machine's pc at the fault. -/
def Obligations.EveryStepKeepsTheInvariant : Prop :=
  ∀ (s t : State), s.Inv → step s = .next t → t.Inv

/-- The latches are all false whenever no key wait is in progress: a step keeps it so
(spec/44_timers_input.md; 90_conflicts.md C6). -/
def Obligations.LatchesAreClearOutsideAKeyWait : Prop :=
  ∀ (s t : State), s.LatchInv → step s = .next t → t.LatchInv

/-- The state after reset meets both invariants. -/
def Obligations.ResetMeetsTheInvariants : Prop :=
  State.reset.Inv ∧ State.reset.LatchInv

/-- Construction: a program longer than the memory above PROGRAM_BASE is refused; any other is placed at
PROGRAM_BASE over the font at FONT_BASE over zeros, with pc at PROGRAM_BASE, an empty stack of
STACK_CAPACITY slots, and every register, timer, pixel, latch and status field clear, the parameters those
given (spec/70_reset_and_hazards.md, section 1; the zeros are the spec's decision D4, the cleared status its
D8 and D10, the entry its D3, the refusal its D30; the record of addresses is the model's, log 8). -/
def Obligations.LoadPlacesFontAndProgram : Prop :=
  ∀ (cfg : Config) (program : List Byte), cfg.wf = true →
    (4096 < cfg.programBase.toNat + program.length → State.construct cfg program = none) ∧
    (cfg.programBase.toNat + program.length ≤ 4096 → ∃ s, State.construct cfg program = some s ∧
      (∀ a, s.byteAt a =
        if cfg.programBase.toNat ≤ a ∧ a < cfg.programBase.toNat + program.length
        then program.getD (a - cfg.programBase.toNat) 0
        else if cfg.fontBase.toNat ≤ a ∧ a < cfg.fontBase.toNat + 80
        then cfg.fontTable.getD (a - cfg.fontBase.toNat) 0 else 0) ∧
      s.pc.toNat = cfg.programBase.toNat ∧ (∀ x, s.reg x = 0) ∧ s.I = 0 ∧ s.sp = 0 ∧
      (∀ k, s.slot k = 0) ∧ s.DT = 0 ∧ s.ST = 0 ∧ (∀ px py, s.pixel px py = false) ∧
      (∀ k : Key, s.latch[k.val] = false) ∧ s.halted = none ∧ s.faultPc = 0 ∧ s.aor = false ∧
      s.aorLog = [] ∧ s.stack.length = cfg.stackCapacity ∧ s.cfg = cfg)

/-- Every run of every program that fits, in every configuration and under every schedule of the agents,
meets both invariants; pc never exceeds 0x10FE (spec/10_state.md, section 4). -/
def Obligations.EveryRunOfALoadedProgramIsSafe : Prop :=
  ∀ (cfg : Config) (program : List Byte) (s t : State), cfg.wf = true →
    State.construct cfg program = some s → Moves s t → t.Inv ∧ t.LatchInv

/-- A call followed, after any moves that never take the stack below the new entry, by a return at that
depth leaves pc past the call and sp as before it (spec/41_control_flow.md, the stack round trip). -/
def Obligations.ReturnUndoesTheMatchingCall : Prop :=
  ∀ (nnn : Addr) (s t u : State), s.stack.length = s.cfg.stackCapacity → s.sp < s.cfg.stackCapacity →
    exec (.call nnn) s = .next t → MovesAbove t.sp t u → u.sp = t.sp →
    ∃ w, exec .ret u = .next w ∧ w.pc = s.pc ∧ w.sp = s.sp ∧ w = { u with pc := w.pc, sp := w.sp }

/-- A tick may come before or after any instruction but FX07, FX15 and FX18 with the same result: the
timers are all the two agents share (spec/20_memory.md, sections 5 and 6). That CXNN draws the same byte
before and after the tick is the model's (log 3). -/
def Obligations.TicksCommuteWithOtherInstructions : Prop :=
  ∀ (i : Instr) (s t : State), (∀ x, i ≠ .ldVxDt x ∧ i ≠ .ldDtVx x ∧ i ≠ .ldStVx x) →
    exec i s = .next t → exec i s.tick = .next t.tick

/-- The schedule loses no behaviour: whatever moves the agents make, in whatever order, some schedule makes
`step` run them (the schedule is the model's, log 4). -/
def Obligations.ScheduleRealisesEveryInterleaving : Prop :=
  ∀ (s u : State), s.schedule = [] → Moves s u →
    ∃ turns : List Turn, runTurns turns.length (s.withSchedule turns) = .next u

/-- The schedule adds no behaviour: a step takes the schedule's next turn and is a move of one agent, or
passes over an Executor turn of a halted machine (log 4, log 6). -/
def Obligations.EveryStepIsAMoveOfOneAgent : Prop :=
  ∀ (s t : State), step s = .next t → t.schedule = s.schedule.tail ∧
    (Move (s.withSchedule s.schedule.tail) t ∨
      s.halted.isSome = true ∧ t = s.withSchedule s.schedule.tail)

/-! ## The host's frame -/

/-- A frame has INSTRUCTIONS_PER_FRAME Executor turns, at least one, and one that the host does not stop runs
to its end: its keys are set, its turns are all taken, and no error condition of the machine ends it
(spec/60_exceptions.md, section 5; D31; log 15). -/
def Obligations.FrameRunsToItsEnd : Prop :=
  ∀ (f : FrameInput) (s : State), 1 ≤ f.instructionsPerFrame ∧
    f.turns.count .executor = f.instructionsPerFrame ∧ (f.stop = true → frame f s = none) ∧
    (f.stop = false → ∃ t, frame f s = some (.next t) ∧ t.schedule = [] ∧ t.held = f.held ∧ t.cfg = s.cfg)

/-- In a frame of a halted machine the Executor takes no step and the ticks go on
(spec/60_exceptions.md, sections 1 and 5; D8). -/
def Obligations.FrameOfAHaltedMachineOnlyTicks : Prop :=
  ∀ (f : FrameInput) (s : State), f.stop = false → s.halted.isSome = true →
    ∃ t, frame f s = some (.next t) ∧ t.DT.toNat = s.DT.toNat - (f.ticks.sum + f.ticksAfter) ∧
      t.ST.toNat = s.ST.toNat - (f.ticks.sum + f.ticksAfter) ∧
      t = { s with DT := t.DT, ST := t.ST, held := f.held, schedule := [] }
end

