-- ==== Sys2Proof/Laws/Memory.lean ====
section
/-! SUPPORT. Memory's laws: a read after a write, and that every memory operation keeps the canonical form. -/

namespace Sys2Proof.Machine

theorem Memory.wfFrom_cons {lo a : Nat} {v : Byte} {m : Memory} :
    Memory.wfFrom lo ((a, v) :: m) = true ↔
      lo ≤ a ∧ a < Config.memSize ∧ v ≠ resetByte a ∧ Memory.wfFrom (a + 1) m = true := by
  simp [Memory.wfFrom, and_assoc]

theorem Memory.wfFrom_mono {lo hi : Nat} (h : lo ≤ hi) :
    ∀ {m : Memory}, Memory.wfFrom hi m = true → Memory.wfFrom lo m = true
  | [], _ => rfl
  | (a, v) :: m, hm => by
    rw [Memory.wfFrom_cons] at hm ⊢
    exact ⟨h.trans hm.1, hm.2⟩

/-- An address below every listed one reads as after reset. -/
theorem Memory.read_below {lo a : Nat} (h : a < lo) :
    ∀ {m : Memory}, Memory.wfFrom lo m = true → m.read a = resetByte a
  | [], _ => rfl
  | (b, v) :: m, hm => by
    rw [Memory.wfFrom_cons] at hm
    have : a ≠ b := by omega
    simp only [Memory.read, if_neg this]
    exact Memory.read_below (by omega) hm.2.2.2

theorem Memory.read_cell {a b : Nat} {v : Byte} {m : Memory} (hm : m.read a = resetByte a) :
    (Memory.cell a v m).read b = if b = a then v else m.read b := by
  by_cases hv : v = resetByte a <;> by_cases hb : b = a <;> simp_all [Memory.cell, Memory.read]

theorem Memory.cell_wfFrom {lo a : Nat} {v : Byte} {m : Memory} (hlo : lo ≤ a) (ha : a < Config.memSize)
    (hm : Memory.wfFrom (a + 1) m = true) : Memory.wfFrom lo (Memory.cell a v m) = true := by
  unfold Memory.cell
  split
  · exact Memory.wfFrom_mono (by omega) hm
  · rename_i h
    exact Memory.wfFrom_cons.2 ⟨hlo, ha, h, hm⟩

/-- A write is read back at its address and changes no other. -/
theorem Memory.read_writeFrom {lo a b : Nat} {v : Byte} :
    ∀ {m : Memory}, Memory.wfFrom lo m = true →
      (m.write a v).read b = if b = a then v else m.read b
  | [], _ => Memory.read_cell rfl
  | (c, u) :: m, hm => by
    have hm' := Memory.wfFrom_cons.1 hm
    unfold Memory.write
    split
    · refine Memory.read_cell (Memory.read_below (lo := c) ‹_› ?_)
      exact Memory.wfFrom_cons.2 ⟨le_refl c, hm'.2⟩
    · split
      · rename_i hac
        subst hac
        rw [Memory.read_cell (Memory.read_below (by omega) hm'.2.2.2)]
        by_cases hb : b = a <;> simp [Memory.read, hb]
      · rename_i hac
        have ih := Memory.read_writeFrom (a := a) (b := b) (v := v) hm'.2.2.2
        by_cases hb : b = c
        · simp [Memory.read, hb, Ne.symm hac]
        · simp only [Memory.read, if_neg hb, ih]

theorem Memory.write_wfFrom {lo a : Nat} {v : Byte} (ha : a < Config.memSize) :
    ∀ {m : Memory}, lo ≤ a → Memory.wfFrom lo m = true → Memory.wfFrom lo (m.write a v) = true
  | [], hlo, _ => Memory.cell_wfFrom hlo ha rfl
  | (c, u) :: m, hlo, hm => by
    have hm' := Memory.wfFrom_cons.1 hm
    unfold Memory.write
    split
    · exact Memory.cell_wfFrom hlo ha (Memory.wfFrom_cons.2 ⟨by omega, hm'.2⟩)
    · split
      · rename_i hac
        exact Memory.cell_wfFrom hlo ha (hac ▸ hm'.2.2.2)
      · exact Memory.wfFrom_cons.2
          ⟨hm'.1, hm'.2.1, hm'.2.2.1, Memory.write_wfFrom ha (by omega) hm'.2.2.2⟩

/-- Read after write, over a memory in canonical form. -/
theorem Memory.read_write {m : Memory} (hm : m.wf = true) (a b : Nat) (v : Byte) :
    (m.write a v).read b = if b = a then v else m.read b :=
  Memory.read_writeFrom hm

/-- A write to an address of the machine keeps the canonical form. -/
theorem Memory.write_wf {m : Memory} (hm : m.wf = true) {a : Nat} (ha : a < Config.memSize) (v : Byte) :
    (m.write a v).wf = true :=
  Memory.write_wfFrom ha (Nat.zero_le a) hm

/-- Bytes that end within memory keep the canonical form. -/
theorem Memory.writeBytes_wf (bytes : List Byte) :
    ∀ {m : Memory} {a : Nat}, m.wf = true → a + bytes.length ≤ Config.memSize →
      (m.writeBytes a bytes).wf = true := by
  induction bytes with
  | nil => intro m a hm _; exact hm
  | cons v vs ih =>
    intro m a hm h
    simp only [List.length_cons] at h
    exact ih (Memory.write_wf hm (by omega) v) (by omega)

/-- Bytes that end within memory are read back from their addresses, and no other address changes. -/
theorem Memory.read_writeBytes (bytes : List Byte) :
    ∀ {m : Memory} {a : Nat} (b : Nat), m.wf = true → a + bytes.length ≤ Config.memSize →
      (m.writeBytes a bytes).read b =
        if a ≤ b ∧ b < a + bytes.length then bytes.getD (b - a) 0 else m.read b := by
  induction bytes with
  | nil =>
    intro m a b _ _
    have : ¬ (a ≤ b ∧ b < a + ([] : List Byte).length) := by simp
    rw [if_neg this]
    rfl
  | cons v vs ih =>
    intro m a b hm h
    simp only [List.length_cons] at h ⊢
    simp only [Memory.writeBytes]
    rw [ih b (Memory.write_wf hm (by omega) v) (by omega), Memory.read_write hm]
    rcases Nat.lt_trichotomy b a with hb | hb | hb
    · simp [show ¬ a + 1 ≤ b by omega, show ¬ a ≤ b by omega, show b ≠ a by omega]
    · subst hb
      simp
    · have e : b - a = (b - (a + 1)) + 1 := by omega
      by_cases hl : b < a + 1 + vs.length
      · rw [if_pos ⟨by omega, hl⟩, if_pos ⟨by omega, by omega⟩, e, List.getD_cons_succ]
      · rw [if_neg (by omega), if_neg (by omega), if_neg (by omega)]

end Sys2Proof.Machine
end

