-- ==== Sys2Proof/Laws/Boot.lean ====
section
/-! SUPPORT. The memory that construction leaves (spec/70_reset_and_hazards.md R230). -/

namespace Sys2Proof.Machine

/-- Constructing the default machine with no program gives the state after reset. -/
theorem construct_default : State.construct Config.default [] = some State.reset := by
  decide +kernel

theorem zeroMemory_wf : zeroMemory.wf = true := by
  decide +kernel

/-- The zero memory holds zero at every address. -/
theorem zeroMemory_read (a : Nat) : zeroMemory.read a = 0 := by
  have hb : Config.default.fontBase.toNat = 80 := by decide
  have hl : Config.defaultFont.length = 80 := by decide
  unfold zeroMemory
  rw [Memory.read_writeBytes _ _ (by decide) (by decide), hb, hl, List.length_replicate]
  by_cases h : 80 ≤ a ∧ a < 80 + 80
  · rw [if_pos h, List.getD_eq_getElem _ _ (by rw [List.length_replicate]; omega)]
    exact List.eq_of_mem_replicate (List.getElem_mem _)
  · rw [if_neg h]
    unfold Memory.read resetByte
    rw [hb]
    simp only
    split
    · rw [List.getD_eq_default _ _ (by rw [hl]; omega)]
    · rfl

end Sys2Proof.Machine
end

