-- ==== Sys2Proof/Laws/State.lean ====
section
/-! SUPPORT. What each update of the state leaves in each field, one lemma a field, true by definition, so
that no proof unfolds an update. -/

namespace Sys2Proof.Machine
namespace State

variable (s : State)


@[simp] theorem setReg_V (x : RegIdx) (v : Byte) : (s.setReg x v).V = s.V.set x.val v := rfl
@[simp] theorem setReg_I (x : RegIdx) (v : Byte) : (s.setReg x v).I = s.I := rfl
@[simp] theorem setReg_pc (x : RegIdx) (v : Byte) : (s.setReg x v).pc = s.pc := rfl
@[simp] theorem setReg_stack (x : RegIdx) (v : Byte) : (s.setReg x v).stack = s.stack := rfl
@[simp] theorem setReg_sp (x : RegIdx) (v : Byte) : (s.setReg x v).sp = s.sp := rfl
@[simp] theorem setReg_DT (x : RegIdx) (v : Byte) : (s.setReg x v).DT = s.DT := rfl
@[simp] theorem setReg_ST (x : RegIdx) (v : Byte) : (s.setReg x v).ST = s.ST := rfl
@[simp] theorem setReg_fb (x : RegIdx) (v : Byte) : (s.setReg x v).fb = s.fb := rfl
@[simp] theorem setReg_latch (x : RegIdx) (v : Byte) : (s.setReg x v).latch = s.latch := rfl
@[simp] theorem setReg_halted (x : RegIdx) (v : Byte) : (s.setReg x v).halted = s.halted := rfl
@[simp] theorem setReg_faultPc (x : RegIdx) (v : Byte) : (s.setReg x v).faultPc = s.faultPc := rfl
@[simp] theorem setReg_aor (x : RegIdx) (v : Byte) : (s.setReg x v).aor = s.aor := rfl
@[simp] theorem setReg_aorLog (x : RegIdx) (v : Byte) : (s.setReg x v).aorLog = s.aorLog := rfl
@[simp] theorem setReg_mem (x : RegIdx) (v : Byte) : (s.setReg x v).mem = s.mem := rfl
@[simp] theorem setReg_held (x : RegIdx) (v : Byte) : (s.setReg x v).held = s.held := rfl
@[simp] theorem setReg_draws (x : RegIdx) (v : Byte) : (s.setReg x v).draws = s.draws := rfl
@[simp] theorem setReg_schedule (x : RegIdx) (v : Byte) : (s.setReg x v).schedule = s.schedule := rfl
@[simp] theorem setReg_cfg (x : RegIdx) (v : Byte) : (s.setReg x v).cfg = s.cfg := rfl

@[simp] theorem setI_V (v : Word) : (s.setI v).V = s.V := rfl
@[simp] theorem setI_I (v : Word) : (s.setI v).I = v := rfl
@[simp] theorem setI_pc (v : Word) : (s.setI v).pc = s.pc := rfl
@[simp] theorem setI_stack (v : Word) : (s.setI v).stack = s.stack := rfl
@[simp] theorem setI_sp (v : Word) : (s.setI v).sp = s.sp := rfl
@[simp] theorem setI_DT (v : Word) : (s.setI v).DT = s.DT := rfl
@[simp] theorem setI_ST (v : Word) : (s.setI v).ST = s.ST := rfl
@[simp] theorem setI_fb (v : Word) : (s.setI v).fb = s.fb := rfl
@[simp] theorem setI_latch (v : Word) : (s.setI v).latch = s.latch := rfl
@[simp] theorem setI_halted (v : Word) : (s.setI v).halted = s.halted := rfl
@[simp] theorem setI_faultPc (v : Word) : (s.setI v).faultPc = s.faultPc := rfl
@[simp] theorem setI_aor (v : Word) : (s.setI v).aor = s.aor := rfl
@[simp] theorem setI_aorLog (v : Word) : (s.setI v).aorLog = s.aorLog := rfl
@[simp] theorem setI_mem (v : Word) : (s.setI v).mem = s.mem := rfl
@[simp] theorem setI_held (v : Word) : (s.setI v).held = s.held := rfl
@[simp] theorem setI_draws (v : Word) : (s.setI v).draws = s.draws := rfl
@[simp] theorem setI_schedule (v : Word) : (s.setI v).schedule = s.schedule := rfl
@[simp] theorem setI_cfg (v : Word) : (s.setI v).cfg = s.cfg := rfl

@[simp] theorem setPc_V (a : Word) : (s.setPc a).V = s.V := rfl
@[simp] theorem setPc_I (a : Word) : (s.setPc a).I = s.I := rfl
@[simp] theorem setPc_pc (a : Word) : (s.setPc a).pc = a := rfl
@[simp] theorem setPc_stack (a : Word) : (s.setPc a).stack = s.stack := rfl
@[simp] theorem setPc_sp (a : Word) : (s.setPc a).sp = s.sp := rfl
@[simp] theorem setPc_DT (a : Word) : (s.setPc a).DT = s.DT := rfl
@[simp] theorem setPc_ST (a : Word) : (s.setPc a).ST = s.ST := rfl
@[simp] theorem setPc_fb (a : Word) : (s.setPc a).fb = s.fb := rfl
@[simp] theorem setPc_latch (a : Word) : (s.setPc a).latch = s.latch := rfl
@[simp] theorem setPc_halted (a : Word) : (s.setPc a).halted = s.halted := rfl
@[simp] theorem setPc_faultPc (a : Word) : (s.setPc a).faultPc = s.faultPc := rfl
@[simp] theorem setPc_aor (a : Word) : (s.setPc a).aor = s.aor := rfl
@[simp] theorem setPc_aorLog (a : Word) : (s.setPc a).aorLog = s.aorLog := rfl
@[simp] theorem setPc_mem (a : Word) : (s.setPc a).mem = s.mem := rfl
@[simp] theorem setPc_held (a : Word) : (s.setPc a).held = s.held := rfl
@[simp] theorem setPc_draws (a : Word) : (s.setPc a).draws = s.draws := rfl
@[simp] theorem setPc_schedule (a : Word) : (s.setPc a).schedule = s.schedule := rfl
@[simp] theorem setPc_cfg (a : Word) : (s.setPc a).cfg = s.cfg := rfl

@[simp] theorem storeByte_V (a : Nat) (v : Byte) : (s.storeByte a v).V = s.V := rfl
@[simp] theorem storeByte_I (a : Nat) (v : Byte) : (s.storeByte a v).I = s.I := rfl
@[simp] theorem storeByte_pc (a : Nat) (v : Byte) : (s.storeByte a v).pc = s.pc := rfl
@[simp] theorem storeByte_stack (a : Nat) (v : Byte) : (s.storeByte a v).stack = s.stack := rfl
@[simp] theorem storeByte_sp (a : Nat) (v : Byte) : (s.storeByte a v).sp = s.sp := rfl
@[simp] theorem storeByte_DT (a : Nat) (v : Byte) : (s.storeByte a v).DT = s.DT := rfl
@[simp] theorem storeByte_ST (a : Nat) (v : Byte) : (s.storeByte a v).ST = s.ST := rfl
@[simp] theorem storeByte_fb (a : Nat) (v : Byte) : (s.storeByte a v).fb = s.fb := rfl
@[simp] theorem storeByte_latch (a : Nat) (v : Byte) : (s.storeByte a v).latch = s.latch := rfl
@[simp] theorem storeByte_halted (a : Nat) (v : Byte) : (s.storeByte a v).halted = s.halted := rfl
@[simp] theorem storeByte_faultPc (a : Nat) (v : Byte) : (s.storeByte a v).faultPc = s.faultPc := rfl
@[simp] theorem storeByte_aor (a : Nat) (v : Byte) : (s.storeByte a v).aor = s.aor := rfl
@[simp] theorem storeByte_aorLog (a : Nat) (v : Byte) : (s.storeByte a v).aorLog = s.aorLog := rfl
@[simp] theorem storeByte_mem (a : Nat) (v : Byte) : (s.storeByte a v).mem = s.mem.write a v := rfl
@[simp] theorem storeByte_held (a : Nat) (v : Byte) : (s.storeByte a v).held = s.held := rfl
@[simp] theorem storeByte_draws (a : Nat) (v : Byte) : (s.storeByte a v).draws = s.draws := rfl
@[simp] theorem storeByte_schedule (a : Nat) (v : Byte) : (s.storeByte a v).schedule = s.schedule := rfl
@[simp] theorem storeByte_cfg (a : Nat) (v : Byte) : (s.storeByte a v).cfg = s.cfg := rfl

@[simp] theorem raiseFatal_V (kind : FatalKind) (a : Word) : (s.raiseFatal kind a).V = s.V := rfl
@[simp] theorem raiseFatal_I (kind : FatalKind) (a : Word) : (s.raiseFatal kind a).I = s.I := rfl
@[simp] theorem raiseFatal_pc (kind : FatalKind) (a : Word) : (s.raiseFatal kind a).pc = a := rfl
@[simp] theorem raiseFatal_stack (kind : FatalKind) (a : Word) : (s.raiseFatal kind a).stack = s.stack := rfl
@[simp] theorem raiseFatal_sp (kind : FatalKind) (a : Word) : (s.raiseFatal kind a).sp = s.sp := rfl
@[simp] theorem raiseFatal_DT (kind : FatalKind) (a : Word) : (s.raiseFatal kind a).DT = s.DT := rfl
@[simp] theorem raiseFatal_ST (kind : FatalKind) (a : Word) : (s.raiseFatal kind a).ST = s.ST := rfl
@[simp] theorem raiseFatal_fb (kind : FatalKind) (a : Word) : (s.raiseFatal kind a).fb = s.fb := rfl
@[simp] theorem raiseFatal_latch (kind : FatalKind) (a : Word) : (s.raiseFatal kind a).latch = s.latch := rfl
@[simp] theorem raiseFatal_halted (kind : FatalKind) (a : Word) : (s.raiseFatal kind a).halted = some kind := rfl
@[simp] theorem raiseFatal_faultPc (kind : FatalKind) (a : Word) : (s.raiseFatal kind a).faultPc = a := rfl
@[simp] theorem raiseFatal_aor (kind : FatalKind) (a : Word) : (s.raiseFatal kind a).aor = s.aor := rfl
@[simp] theorem raiseFatal_aorLog (kind : FatalKind) (a : Word) : (s.raiseFatal kind a).aorLog = s.aorLog := rfl
@[simp] theorem raiseFatal_mem (kind : FatalKind) (a : Word) : (s.raiseFatal kind a).mem = s.mem := rfl
@[simp] theorem raiseFatal_held (kind : FatalKind) (a : Word) : (s.raiseFatal kind a).held = s.held := rfl
@[simp] theorem raiseFatal_draws (kind : FatalKind) (a : Word) : (s.raiseFatal kind a).draws = s.draws := rfl
@[simp] theorem raiseFatal_schedule (kind : FatalKind) (a : Word) : (s.raiseFatal kind a).schedule = s.schedule := rfl
@[simp] theorem raiseFatal_cfg (kind : FatalKind) (a : Word) : (s.raiseFatal kind a).cfg = s.cfg := rfl

@[simp] theorem signalAor_V (a : Nat) : (s.signalAor a).V = s.V := rfl
@[simp] theorem signalAor_I (a : Nat) : (s.signalAor a).I = s.I := rfl
@[simp] theorem signalAor_pc (a : Nat) : (s.signalAor a).pc = s.pc := rfl
@[simp] theorem signalAor_stack (a : Nat) : (s.signalAor a).stack = s.stack := rfl
@[simp] theorem signalAor_sp (a : Nat) : (s.signalAor a).sp = s.sp := rfl
@[simp] theorem signalAor_DT (a : Nat) : (s.signalAor a).DT = s.DT := rfl
@[simp] theorem signalAor_ST (a : Nat) : (s.signalAor a).ST = s.ST := rfl
@[simp] theorem signalAor_fb (a : Nat) : (s.signalAor a).fb = s.fb := rfl
@[simp] theorem signalAor_latch (a : Nat) : (s.signalAor a).latch = s.latch := rfl
@[simp] theorem signalAor_halted (a : Nat) : (s.signalAor a).halted = s.halted := rfl
@[simp] theorem signalAor_faultPc (a : Nat) : (s.signalAor a).faultPc = s.faultPc := rfl
@[simp] theorem signalAor_aor (a : Nat) : (s.signalAor a).aor = true := rfl
@[simp] theorem signalAor_aorLog (a : Nat) : (s.signalAor a).aorLog = s.aorLog ++ [a] := rfl
@[simp] theorem signalAor_mem (a : Nat) : (s.signalAor a).mem = s.mem := rfl
@[simp] theorem signalAor_held (a : Nat) : (s.signalAor a).held = s.held := rfl
@[simp] theorem signalAor_draws (a : Nat) : (s.signalAor a).draws = s.draws := rfl
@[simp] theorem signalAor_schedule (a : Nat) : (s.signalAor a).schedule = s.schedule := rfl
@[simp] theorem signalAor_cfg (a : Nat) : (s.signalAor a).cfg = s.cfg := rfl

@[simp] theorem setPixel_V (x : Fin 64) (y : Fin 32) (b : Bool) : (s.setPixel x y b).V = s.V := rfl
@[simp] theorem setPixel_I (x : Fin 64) (y : Fin 32) (b : Bool) : (s.setPixel x y b).I = s.I := rfl
@[simp] theorem setPixel_pc (x : Fin 64) (y : Fin 32) (b : Bool) : (s.setPixel x y b).pc = s.pc := rfl
@[simp] theorem setPixel_stack (x : Fin 64) (y : Fin 32) (b : Bool) : (s.setPixel x y b).stack = s.stack := rfl
@[simp] theorem setPixel_sp (x : Fin 64) (y : Fin 32) (b : Bool) : (s.setPixel x y b).sp = s.sp := rfl
@[simp] theorem setPixel_DT (x : Fin 64) (y : Fin 32) (b : Bool) : (s.setPixel x y b).DT = s.DT := rfl
@[simp] theorem setPixel_ST (x : Fin 64) (y : Fin 32) (b : Bool) : (s.setPixel x y b).ST = s.ST := rfl
@[simp] theorem setPixel_fb (x : Fin 64) (y : Fin 32) (b : Bool) : (s.setPixel x y b).fb = s.fb.set y.val ((s.fb[y.val]).set x.val b) := rfl
@[simp] theorem setPixel_latch (x : Fin 64) (y : Fin 32) (b : Bool) : (s.setPixel x y b).latch = s.latch := rfl
@[simp] theorem setPixel_halted (x : Fin 64) (y : Fin 32) (b : Bool) : (s.setPixel x y b).halted = s.halted := rfl
@[simp] theorem setPixel_faultPc (x : Fin 64) (y : Fin 32) (b : Bool) : (s.setPixel x y b).faultPc = s.faultPc := rfl
@[simp] theorem setPixel_aor (x : Fin 64) (y : Fin 32) (b : Bool) : (s.setPixel x y b).aor = s.aor := rfl
@[simp] theorem setPixel_aorLog (x : Fin 64) (y : Fin 32) (b : Bool) : (s.setPixel x y b).aorLog = s.aorLog := rfl
@[simp] theorem setPixel_mem (x : Fin 64) (y : Fin 32) (b : Bool) : (s.setPixel x y b).mem = s.mem := rfl
@[simp] theorem setPixel_held (x : Fin 64) (y : Fin 32) (b : Bool) : (s.setPixel x y b).held = s.held := rfl
@[simp] theorem setPixel_draws (x : Fin 64) (y : Fin 32) (b : Bool) : (s.setPixel x y b).draws = s.draws := rfl
@[simp] theorem setPixel_schedule (x : Fin 64) (y : Fin 32) (b : Bool) : (s.setPixel x y b).schedule = s.schedule := rfl
@[simp] theorem setPixel_cfg (x : Fin 64) (y : Fin 32) (b : Bool) : (s.setPixel x y b).cfg = s.cfg := rfl

@[simp] theorem countDraw_V : (s.countDraw).V = s.V := rfl
@[simp] theorem countDraw_I : (s.countDraw).I = s.I := rfl
@[simp] theorem countDraw_pc : (s.countDraw).pc = s.pc := rfl
@[simp] theorem countDraw_stack : (s.countDraw).stack = s.stack := rfl
@[simp] theorem countDraw_sp : (s.countDraw).sp = s.sp := rfl
@[simp] theorem countDraw_DT : (s.countDraw).DT = s.DT := rfl
@[simp] theorem countDraw_ST : (s.countDraw).ST = s.ST := rfl
@[simp] theorem countDraw_fb : (s.countDraw).fb = s.fb := rfl
@[simp] theorem countDraw_latch : (s.countDraw).latch = s.latch := rfl
@[simp] theorem countDraw_halted : (s.countDraw).halted = s.halted := rfl
@[simp] theorem countDraw_faultPc : (s.countDraw).faultPc = s.faultPc := rfl
@[simp] theorem countDraw_aor : (s.countDraw).aor = s.aor := rfl
@[simp] theorem countDraw_aorLog : (s.countDraw).aorLog = s.aorLog := rfl
@[simp] theorem countDraw_mem : (s.countDraw).mem = s.mem := rfl
@[simp] theorem countDraw_held : (s.countDraw).held = s.held := rfl
@[simp] theorem countDraw_draws : (s.countDraw).draws = s.draws + 1 := rfl
@[simp] theorem countDraw_schedule : (s.countDraw).schedule = s.schedule := rfl
@[simp] theorem countDraw_cfg : (s.countDraw).cfg = s.cfg := rfl

@[simp] theorem clearLatches_V : (s.clearLatches).V = s.V := rfl
@[simp] theorem clearLatches_I : (s.clearLatches).I = s.I := rfl
@[simp] theorem clearLatches_pc : (s.clearLatches).pc = s.pc := rfl
@[simp] theorem clearLatches_stack : (s.clearLatches).stack = s.stack := rfl
@[simp] theorem clearLatches_sp : (s.clearLatches).sp = s.sp := rfl
@[simp] theorem clearLatches_DT : (s.clearLatches).DT = s.DT := rfl
@[simp] theorem clearLatches_ST : (s.clearLatches).ST = s.ST := rfl
@[simp] theorem clearLatches_fb : (s.clearLatches).fb = s.fb := rfl
@[simp] theorem clearLatches_latch : (s.clearLatches).latch = noKeys := rfl
@[simp] theorem clearLatches_halted : (s.clearLatches).halted = s.halted := rfl
@[simp] theorem clearLatches_faultPc : (s.clearLatches).faultPc = s.faultPc := rfl
@[simp] theorem clearLatches_aor : (s.clearLatches).aor = s.aor := rfl
@[simp] theorem clearLatches_aorLog : (s.clearLatches).aorLog = s.aorLog := rfl
@[simp] theorem clearLatches_mem : (s.clearLatches).mem = s.mem := rfl
@[simp] theorem clearLatches_held : (s.clearLatches).held = s.held := rfl
@[simp] theorem clearLatches_draws : (s.clearLatches).draws = s.draws := rfl
@[simp] theorem clearLatches_schedule : (s.clearLatches).schedule = s.schedule := rfl
@[simp] theorem clearLatches_cfg : (s.clearLatches).cfg = s.cfg := rfl

@[simp] theorem latchHeld_V : (s.latchHeld).V = s.V := rfl
@[simp] theorem latchHeld_I : (s.latchHeld).I = s.I := rfl
@[simp] theorem latchHeld_pc : (s.latchHeld).pc = s.pc := rfl
@[simp] theorem latchHeld_stack : (s.latchHeld).stack = s.stack := rfl
@[simp] theorem latchHeld_sp : (s.latchHeld).sp = s.sp := rfl
@[simp] theorem latchHeld_DT : (s.latchHeld).DT = s.DT := rfl
@[simp] theorem latchHeld_ST : (s.latchHeld).ST = s.ST := rfl
@[simp] theorem latchHeld_fb : (s.latchHeld).fb = s.fb := rfl
@[simp] theorem latchHeld_latch : (s.latchHeld).latch = Vector.ofFn fun k => s.latch[k.val] || s.held[k.val] := rfl
@[simp] theorem latchHeld_halted : (s.latchHeld).halted = s.halted := rfl
@[simp] theorem latchHeld_faultPc : (s.latchHeld).faultPc = s.faultPc := rfl
@[simp] theorem latchHeld_aor : (s.latchHeld).aor = s.aor := rfl
@[simp] theorem latchHeld_aorLog : (s.latchHeld).aorLog = s.aorLog := rfl
@[simp] theorem latchHeld_mem : (s.latchHeld).mem = s.mem := rfl
@[simp] theorem latchHeld_held : (s.latchHeld).held = s.held := rfl
@[simp] theorem latchHeld_draws : (s.latchHeld).draws = s.draws := rfl
@[simp] theorem latchHeld_schedule : (s.latchHeld).schedule = s.schedule := rfl
@[simp] theorem latchHeld_cfg : (s.latchHeld).cfg = s.cfg := rfl

@[simp] theorem tick_V : (s.tick).V = s.V := rfl
@[simp] theorem tick_I : (s.tick).I = s.I := rfl
@[simp] theorem tick_pc : (s.tick).pc = s.pc := rfl
@[simp] theorem tick_stack : (s.tick).stack = s.stack := rfl
@[simp] theorem tick_sp : (s.tick).sp = s.sp := rfl
@[simp] theorem tick_DT : (s.tick).DT = tickTimer s.DT := rfl
@[simp] theorem tick_ST : (s.tick).ST = tickTimer s.ST := rfl
@[simp] theorem tick_fb : (s.tick).fb = s.fb := rfl
@[simp] theorem tick_latch : (s.tick).latch = s.latch := rfl
@[simp] theorem tick_halted : (s.tick).halted = s.halted := rfl
@[simp] theorem tick_faultPc : (s.tick).faultPc = s.faultPc := rfl
@[simp] theorem tick_aor : (s.tick).aor = s.aor := rfl
@[simp] theorem tick_aorLog : (s.tick).aorLog = s.aorLog := rfl
@[simp] theorem tick_mem : (s.tick).mem = s.mem := rfl
@[simp] theorem tick_held : (s.tick).held = s.held := rfl
@[simp] theorem tick_draws : (s.tick).draws = s.draws := rfl
@[simp] theorem tick_schedule : (s.tick).schedule = s.schedule := rfl
@[simp] theorem tick_cfg : (s.tick).cfg = s.cfg := rfl

@[simp] theorem setKeys_V (h : KeySet) : (s.setKeys h).V = s.V := rfl
@[simp] theorem setKeys_I (h : KeySet) : (s.setKeys h).I = s.I := rfl
@[simp] theorem setKeys_pc (h : KeySet) : (s.setKeys h).pc = s.pc := rfl
@[simp] theorem setKeys_stack (h : KeySet) : (s.setKeys h).stack = s.stack := rfl
@[simp] theorem setKeys_sp (h : KeySet) : (s.setKeys h).sp = s.sp := rfl
@[simp] theorem setKeys_DT (h : KeySet) : (s.setKeys h).DT = s.DT := rfl
@[simp] theorem setKeys_ST (h : KeySet) : (s.setKeys h).ST = s.ST := rfl
@[simp] theorem setKeys_fb (h : KeySet) : (s.setKeys h).fb = s.fb := rfl
@[simp] theorem setKeys_latch (h : KeySet) : (s.setKeys h).latch = s.latch := rfl
@[simp] theorem setKeys_halted (h : KeySet) : (s.setKeys h).halted = s.halted := rfl
@[simp] theorem setKeys_faultPc (h : KeySet) : (s.setKeys h).faultPc = s.faultPc := rfl
@[simp] theorem setKeys_aor (h : KeySet) : (s.setKeys h).aor = s.aor := rfl
@[simp] theorem setKeys_aorLog (h : KeySet) : (s.setKeys h).aorLog = s.aorLog := rfl
@[simp] theorem setKeys_mem (h : KeySet) : (s.setKeys h).mem = s.mem := rfl
@[simp] theorem setKeys_held (h : KeySet) : (s.setKeys h).held = h := rfl
@[simp] theorem setKeys_draws (h : KeySet) : (s.setKeys h).draws = s.draws := rfl
@[simp] theorem setKeys_schedule (h : KeySet) : (s.setKeys h).schedule = s.schedule := rfl
@[simp] theorem setKeys_cfg (h : KeySet) : (s.setKeys h).cfg = s.cfg := rfl

@[simp] theorem advance_V : (s.advance).V = s.V := rfl
@[simp] theorem advance_I : (s.advance).I = s.I := rfl
@[simp] theorem advance_pc : (s.advance).pc = s.pc + 2 := rfl
@[simp] theorem advance_stack : (s.advance).stack = s.stack := rfl
@[simp] theorem advance_sp : (s.advance).sp = s.sp := rfl
@[simp] theorem advance_DT : (s.advance).DT = s.DT := rfl
@[simp] theorem advance_ST : (s.advance).ST = s.ST := rfl
@[simp] theorem advance_fb : (s.advance).fb = s.fb := rfl
@[simp] theorem advance_latch : (s.advance).latch = s.latch := rfl
@[simp] theorem advance_halted : (s.advance).halted = s.halted := rfl
@[simp] theorem advance_faultPc : (s.advance).faultPc = s.faultPc := rfl
@[simp] theorem advance_aor : (s.advance).aor = s.aor := rfl
@[simp] theorem advance_aorLog : (s.advance).aorLog = s.aorLog := rfl
@[simp] theorem advance_mem : (s.advance).mem = s.mem := rfl
@[simp] theorem advance_held : (s.advance).held = s.held := rfl
@[simp] theorem advance_draws : (s.advance).draws = s.draws := rfl
@[simp] theorem advance_schedule : (s.advance).schedule = s.schedule := rfl
@[simp] theorem advance_cfg : (s.advance).cfg = s.cfg := rfl

@[simp] theorem withSchedule_V (r : List Turn) : (s.withSchedule r).V = s.V := rfl
@[simp] theorem withSchedule_I (r : List Turn) : (s.withSchedule r).I = s.I := rfl
@[simp] theorem withSchedule_pc (r : List Turn) : (s.withSchedule r).pc = s.pc := rfl
@[simp] theorem withSchedule_stack (r : List Turn) : (s.withSchedule r).stack = s.stack := rfl
@[simp] theorem withSchedule_sp (r : List Turn) : (s.withSchedule r).sp = s.sp := rfl
@[simp] theorem withSchedule_DT (r : List Turn) : (s.withSchedule r).DT = s.DT := rfl
@[simp] theorem withSchedule_ST (r : List Turn) : (s.withSchedule r).ST = s.ST := rfl
@[simp] theorem withSchedule_fb (r : List Turn) : (s.withSchedule r).fb = s.fb := rfl
@[simp] theorem withSchedule_latch (r : List Turn) : (s.withSchedule r).latch = s.latch := rfl
@[simp] theorem withSchedule_halted (r : List Turn) : (s.withSchedule r).halted = s.halted := rfl
@[simp] theorem withSchedule_faultPc (r : List Turn) : (s.withSchedule r).faultPc = s.faultPc := rfl
@[simp] theorem withSchedule_aor (r : List Turn) : (s.withSchedule r).aor = s.aor := rfl
@[simp] theorem withSchedule_aorLog (r : List Turn) : (s.withSchedule r).aorLog = s.aorLog := rfl
@[simp] theorem withSchedule_mem (r : List Turn) : (s.withSchedule r).mem = s.mem := rfl
@[simp] theorem withSchedule_held (r : List Turn) : (s.withSchedule r).held = s.held := rfl
@[simp] theorem withSchedule_draws (r : List Turn) : (s.withSchedule r).draws = s.draws := rfl
@[simp] theorem withSchedule_schedule (r : List Turn) : (s.withSchedule r).schedule = r := rfl
@[simp] theorem withSchedule_cfg (r : List Turn) : (s.withSchedule r).cfg = s.cfg := rfl

end State
end Sys2Proof.Machine
end

