-- ==== Sys2Proof/Laws/Ops.lean ====
section
/-! SUPPORT. One lemma for each accessor under each update, and one for each shared operation that says
everything it can do. -/

namespace Sys2Proof.Machine
namespace State

variable (s : State)

/-! ## Accessors under updates -/

theorem reg_setReg (x y : RegIdx) (v : Byte) :
    (s.setReg x v).reg y = if y = x then v else s.reg y := by
  unfold reg setReg
  rw [Vector.getElem_set]
  by_cases h : y = x
  · simp [h]
  · rw [if_neg h, if_neg (fun e => h (Fin.ext e.symm))]

@[simp] theorem reg_setReg_self (x : RegIdx) (v : Byte) : (s.setReg x v).reg x = v := by
  simp [reg_setReg]

theorem reg_setReg_ne {x y : RegIdx} (h : y ≠ x) (v : Byte) : (s.setReg x v).reg y = s.reg y := by
  simp [reg_setReg, h]

theorem pixel_setPixel (x px : Fin 64) (y py : Fin 32) (b : Bool) :
    (s.setPixel x y b).pixel px py = if px = x ∧ py = y then b else s.pixel px py := by
  unfold pixel setPixel
  simp only [Vector.getElem_set]
  by_cases hy : py = y
  · subst hy
    by_cases hx : px = x
    · simp [hx]
    · have : ¬ x.val = px.val := fun e => hx (Fin.ext e.symm)
      simp [hx, this]
  · have : ¬ y.val = py.val := fun e => hy (Fin.ext e.symm)
    simp [hy, this]

theorem byteAt_storeByte {s : State} (h : s.mem.wf = true) (a b : Nat) (v : Byte) :
    (s.storeByte a v).byteAt b = if b = a then v else s.byteAt b :=
  Memory.read_write h a b v


@[simp] theorem byteAt_setReg (x : RegIdx) (v : Byte) (adr : Nat) : (s.setReg x v).byteAt adr = s.byteAt adr := rfl
@[simp] theorem pixel_setReg (x : RegIdx) (v : Byte) (px : Fin 64) (py : Fin 32) : (s.setReg x v).pixel px py = s.pixel px py := rfl
@[simp] theorem indexBase_setReg (x : RegIdx) (v : Byte) : (s.setReg x v).indexBase = s.indexBase := rfl
@[simp] theorem ea_setReg (x : RegIdx) (v : Byte) (k : Nat) : (s.setReg x v).ea k = s.ea k := rfl

@[simp] theorem reg_setI (v : Word) (z : RegIdx) : (s.setI v).reg z = s.reg z := rfl
@[simp] theorem byteAt_setI (v : Word) (adr : Nat) : (s.setI v).byteAt adr = s.byteAt adr := rfl
@[simp] theorem pixel_setI (v : Word) (px : Fin 64) (py : Fin 32) : (s.setI v).pixel px py = s.pixel px py := rfl

@[simp] theorem reg_setPc (a : Word) (z : RegIdx) : (s.setPc a).reg z = s.reg z := rfl
@[simp] theorem byteAt_setPc (a : Word) (adr : Nat) : (s.setPc a).byteAt adr = s.byteAt adr := rfl
@[simp] theorem pixel_setPc (a : Word) (px : Fin 64) (py : Fin 32) : (s.setPc a).pixel px py = s.pixel px py := rfl
@[simp] theorem indexBase_setPc (a : Word) : (s.setPc a).indexBase = s.indexBase := rfl
@[simp] theorem ea_setPc (a : Word) (k : Nat) : (s.setPc a).ea k = s.ea k := rfl

@[simp] theorem reg_storeByte (a : Nat) (v : Byte) (z : RegIdx) : (s.storeByte a v).reg z = s.reg z := rfl
@[simp] theorem pixel_storeByte (a : Nat) (v : Byte) (px : Fin 64) (py : Fin 32) : (s.storeByte a v).pixel px py = s.pixel px py := rfl
@[simp] theorem indexBase_storeByte (a : Nat) (v : Byte) : (s.storeByte a v).indexBase = s.indexBase := rfl
@[simp] theorem ea_storeByte (a : Nat) (v : Byte) (k : Nat) : (s.storeByte a v).ea k = s.ea k := rfl

@[simp] theorem reg_raiseFatal (kind : FatalKind) (a : Word) (z : RegIdx) : (s.raiseFatal kind a).reg z = s.reg z := rfl
@[simp] theorem byteAt_raiseFatal (kind : FatalKind) (a : Word) (adr : Nat) : (s.raiseFatal kind a).byteAt adr = s.byteAt adr := rfl
@[simp] theorem pixel_raiseFatal (kind : FatalKind) (a : Word) (px : Fin 64) (py : Fin 32) : (s.raiseFatal kind a).pixel px py = s.pixel px py := rfl
@[simp] theorem indexBase_raiseFatal (kind : FatalKind) (a : Word) : (s.raiseFatal kind a).indexBase = s.indexBase := rfl
@[simp] theorem ea_raiseFatal (kind : FatalKind) (a : Word) (k : Nat) : (s.raiseFatal kind a).ea k = s.ea k := rfl

@[simp] theorem reg_signalAor (a : Nat) (z : RegIdx) : (s.signalAor a).reg z = s.reg z := rfl
@[simp] theorem byteAt_signalAor (a : Nat) (adr : Nat) : (s.signalAor a).byteAt adr = s.byteAt adr := rfl
@[simp] theorem pixel_signalAor (a : Nat) (px : Fin 64) (py : Fin 32) : (s.signalAor a).pixel px py = s.pixel px py := rfl
@[simp] theorem indexBase_signalAor (a : Nat) : (s.signalAor a).indexBase = s.indexBase := rfl
@[simp] theorem ea_signalAor (a : Nat) (k : Nat) : (s.signalAor a).ea k = s.ea k := rfl

@[simp] theorem reg_setPixel (x : Fin 64) (y : Fin 32) (b : Bool) (z : RegIdx) : (s.setPixel x y b).reg z = s.reg z := rfl
@[simp] theorem byteAt_setPixel (x : Fin 64) (y : Fin 32) (b : Bool) (adr : Nat) : (s.setPixel x y b).byteAt adr = s.byteAt adr := rfl
@[simp] theorem indexBase_setPixel (x : Fin 64) (y : Fin 32) (b : Bool) : (s.setPixel x y b).indexBase = s.indexBase := rfl
@[simp] theorem ea_setPixel (x : Fin 64) (y : Fin 32) (b : Bool) (k : Nat) : (s.setPixel x y b).ea k = s.ea k := rfl

@[simp] theorem reg_countDraw (z : RegIdx) : (s.countDraw).reg z = s.reg z := rfl
@[simp] theorem byteAt_countDraw (adr : Nat) : (s.countDraw).byteAt adr = s.byteAt adr := rfl
@[simp] theorem pixel_countDraw (px : Fin 64) (py : Fin 32) : (s.countDraw).pixel px py = s.pixel px py := rfl
@[simp] theorem indexBase_countDraw : (s.countDraw).indexBase = s.indexBase := rfl
@[simp] theorem ea_countDraw (k : Nat) : (s.countDraw).ea k = s.ea k := rfl

@[simp] theorem reg_clearLatches (z : RegIdx) : (s.clearLatches).reg z = s.reg z := rfl
@[simp] theorem byteAt_clearLatches (adr : Nat) : (s.clearLatches).byteAt adr = s.byteAt adr := rfl
@[simp] theorem pixel_clearLatches (px : Fin 64) (py : Fin 32) : (s.clearLatches).pixel px py = s.pixel px py := rfl
@[simp] theorem indexBase_clearLatches : (s.clearLatches).indexBase = s.indexBase := rfl
@[simp] theorem ea_clearLatches (k : Nat) : (s.clearLatches).ea k = s.ea k := rfl

@[simp] theorem reg_latchHeld (z : RegIdx) : (s.latchHeld).reg z = s.reg z := rfl
@[simp] theorem byteAt_latchHeld (adr : Nat) : (s.latchHeld).byteAt adr = s.byteAt adr := rfl
@[simp] theorem pixel_latchHeld (px : Fin 64) (py : Fin 32) : (s.latchHeld).pixel px py = s.pixel px py := rfl
@[simp] theorem indexBase_latchHeld : (s.latchHeld).indexBase = s.indexBase := rfl
@[simp] theorem ea_latchHeld (k : Nat) : (s.latchHeld).ea k = s.ea k := rfl

@[simp] theorem reg_tick (z : RegIdx) : (s.tick).reg z = s.reg z := rfl
@[simp] theorem byteAt_tick (adr : Nat) : (s.tick).byteAt adr = s.byteAt adr := rfl
@[simp] theorem pixel_tick (px : Fin 64) (py : Fin 32) : (s.tick).pixel px py = s.pixel px py := rfl
@[simp] theorem indexBase_tick : (s.tick).indexBase = s.indexBase := rfl
@[simp] theorem ea_tick (k : Nat) : (s.tick).ea k = s.ea k := rfl

@[simp] theorem reg_setKeys (h : KeySet) (z : RegIdx) : (s.setKeys h).reg z = s.reg z := rfl
@[simp] theorem byteAt_setKeys (h : KeySet) (adr : Nat) : (s.setKeys h).byteAt adr = s.byteAt adr := rfl
@[simp] theorem pixel_setKeys (h : KeySet) (px : Fin 64) (py : Fin 32) : (s.setKeys h).pixel px py = s.pixel px py := rfl
@[simp] theorem indexBase_setKeys (h : KeySet) : (s.setKeys h).indexBase = s.indexBase := rfl
@[simp] theorem ea_setKeys (h : KeySet) (k : Nat) : (s.setKeys h).ea k = s.ea k := rfl

@[simp] theorem reg_advance (z : RegIdx) : (s.advance).reg z = s.reg z := rfl
@[simp] theorem byteAt_advance (adr : Nat) : (s.advance).byteAt adr = s.byteAt adr := rfl
@[simp] theorem pixel_advance (px : Fin 64) (py : Fin 32) : (s.advance).pixel px py = s.pixel px py := rfl
@[simp] theorem indexBase_advance : (s.advance).indexBase = s.indexBase := rfl
@[simp] theorem ea_advance (k : Nat) : (s.advance).ea k = s.ea k := rfl

@[simp] theorem reg_withSchedule (r : List Turn) (z : RegIdx) : (s.withSchedule r).reg z = s.reg z := rfl
@[simp] theorem byteAt_withSchedule (r : List Turn) (adr : Nat) : (s.withSchedule r).byteAt adr = s.byteAt adr := rfl
@[simp] theorem pixel_withSchedule (r : List Turn) (px : Fin 64) (py : Fin 32) : (s.withSchedule r).pixel px py = s.pixel px py := rfl
@[simp] theorem indexBase_withSchedule (r : List Turn) : (s.withSchedule r).indexBase = s.indexBase := rfl
@[simp] theorem ea_withSchedule (r : List Turn) (k : Nat) : (s.withSchedule r).ea k = s.ea k := rfl

/-! ## Flags -/

/-- WriteResultAndFlag changes V alone. -/
theorem writeResultAndFlag_eq (x : RegIdx) (res flag : Byte) :
    s.writeResultAndFlag x res flag = { s with V := (s.writeResultAndFlag x res flag).V } := by
  unfold writeResultAndFlag
  split <;> rfl

/-- The registers after WriteResultAndFlag (spec/42_alu.md R131). -/
theorem reg_writeResultAndFlag (x y : RegIdx) (res flag : Byte) :
    (s.writeResultAndFlag x res flag).reg y =
      if y = vF ∧ (x ≠ vF ∨ s.cfg.flagWriteLast = true) then flag
      else if y = x then res else s.reg y := by
  unfold writeResultAndFlag
  by_cases hl : s.cfg.flagWriteLast = true <;> by_cases hy : y = vF <;> by_cases hx : x = vF <;>
    simp_all [reg_setReg]
  exact fun h => absurd h.symm hx

/-- FX1E's flag changes V alone. -/
theorem writeIndexFlag_eq (t : Word) : s.writeIndexFlag t = { s with V := (s.writeIndexFlag t).V } := by
  unfold writeIndexFlag
  split
  · rfl
  · split <;> rfl

/-- The registers after FX1E's flag (spec/43_index_memory.md R152). -/
theorem reg_writeIndexFlag (t : Word) (y : RegIdx) :
    (s.writeIndexFlag t).reg y =
      if y = vF then (if indexOverflow t then 1 else if s.cfg.fx1eClearsVf then 0 else s.reg vF)
      else s.reg y := by
  unfold writeIndexFlag
  split
  · by_cases h : y = vF <;> simp [h, reg_setReg]
  · split <;> by_cases h : y = vF <;> simp [h, reg_setReg]

/-! ## Skips, stack, errors -/

/-- A skip moves pc on by one word or does nothing. -/
theorem skipIf_eq (b : Bool) : s.skipIf b = { s with pc := if b then s.pc + 2 else s.pc } := by
  cases b <;> rfl

/-- A push fails on a full stack, and else writes the slot at sp. -/
theorem push_eq (v : Word) : s.push v = if s.sp = s.cfg.stackCapacity then none
    else some { s with stack := s.stack.set s.sp v, sp := s.sp + 1 } := rfl

theorem pop_empty {s : State} (h : s.sp = 0) : s.pop = none := by
  simp [pop, h]

theorem pop_succ {s : State} {k : Nat} (h : s.sp = k + 1) :
    s.pop = some (s.slot k, { s with sp := k }) := by
  simp [pop, h]

/-! ## Accesses through I -/

/-- An access through I beyond memory stores nothing and is recorded; another stores its byte. -/
theorem storeThroughI_cases (k : Nat) (v : Byte) :
    (lastByte < s.ea k ∧ s.storeThroughI k v = s.signalAor (s.ea k)) ∨
      (s.ea k ≤ lastByte ∧ s.storeThroughI k v = s.storeByte (s.ea k) v) := by
  unfold storeThroughI
  split
  · exact .inl ⟨‹_›, rfl⟩
  · exact .inr ⟨by omega, rfl⟩

/-- A load through I beyond memory loads nothing and is recorded; another loads its byte. -/
theorem loadThroughI_cases (k : RegIdx) :
    (lastByte < s.ea k.val ∧ s.loadThroughI k = s.signalAor (s.ea k.val)) ∨
      (s.ea k.val ≤ lastByte ∧ s.loadThroughI k = s.setReg k (s.byteAt (s.ea k.val))) := by
  unfold loadThroughI
  split
  · exact .inl ⟨‹_›, rfl⟩
  · exact .inr ⟨by omega, rfl⟩

@[simp] theorem ea_storeThroughI (k j : Nat) (v : Byte) : (s.storeThroughI k v).ea j = s.ea j := by
  rcases s.storeThroughI_cases k v with ⟨-, h⟩ | ⟨-, h⟩ <;> simp [h]

@[simp] theorem ea_loadThroughI (k : RegIdx) (j : Nat) : (s.loadThroughI k).ea j = s.ea j := by
  rcases s.loadThroughI_cases k with ⟨-, h⟩ | ⟨-, h⟩ <;> simp [h]

@[simp] theorem byteAt_loadThroughI (k : RegIdx) (a : Nat) : (s.loadThroughI k).byteAt a = s.byteAt a := by
  rcases s.loadThroughI_cases k with ⟨-, h⟩ | ⟨-, h⟩ <;> simp [h]

/-- A store through I changes memory and the AOR status alone. -/
theorem storeThroughI_eq (k : Nat) (v : Byte) : s.storeThroughI k v =
    { s with mem := (s.storeThroughI k v).mem, aor := (s.storeThroughI k v).aor,
             aorLog := (s.storeThroughI k v).aorLog } := by
  rcases s.storeThroughI_cases k v with ⟨-, h⟩ | ⟨-, h⟩ <;> rw [h] <;> rfl

/-- A load through I changes V and the AOR status alone. -/
theorem loadThroughI_eq (k : RegIdx) : s.loadThroughI k =
    { s with V := (s.loadThroughI k).V, aor := (s.loadThroughI k).aor,
             aorLog := (s.loadThroughI k).aorLog } := by
  rcases s.loadThroughI_cases k with ⟨-, h⟩ | ⟨-, h⟩ <;> rw [h] <;> rfl

/-- The AOR status after a store through I (spec/60_exceptions.md R204). -/
theorem aor_storeThroughI (k : Nat) (v : Byte) :
    (s.storeThroughI k v).aor = (s.aor || decide (lastByte < s.ea k)) ∧
      (s.storeThroughI k v).aorLog = s.aorLog ++ if lastByte < s.ea k then [s.ea k] else [] := by
  rcases s.storeThroughI_cases k v with ⟨hk, h⟩ | ⟨hk, h⟩ <;> rw [h] <;>
    simp [hk, Nat.not_lt_of_le]

/-- The AOR status after a load through I (R204). -/
theorem aor_loadThroughI (k : RegIdx) :
    (s.loadThroughI k).aor = (s.aor || decide (lastByte < s.ea k.val)) ∧
      (s.loadThroughI k).aorLog = s.aorLog ++ if lastByte < s.ea k.val then [s.ea k.val] else [] := by
  rcases s.loadThroughI_cases k with ⟨hk, h⟩ | ⟨hk, h⟩ <;> rw [h] <;>
    simp [hk, Nat.not_lt_of_le]

theorem wf_storeThroughI {s : State} (hs : s.mem.wf = true) (k : Nat) (v : Byte) :
    (s.storeThroughI k v).mem.wf = true := by
  rcases s.storeThroughI_cases k v with ⟨-, h⟩ | ⟨hk, h⟩ <;> rw [h]
  · exact hs
  · exact Memory.write_wf hs (Nat.lt_succ_of_le hk) v

/-- The bytes after a store through I (spec/43_index_memory.md R151). -/
theorem byteAt_storeThroughI {s : State} (hs : s.mem.wf = true) (k : Nat) (v : Byte) (a : Nat) :
    (s.storeThroughI k v).byteAt a = if a = s.ea k ∧ s.ea k ≤ lastByte then v else s.byteAt a := by
  rcases s.storeThroughI_cases k v with ⟨hk, h⟩ | ⟨hk, h⟩ <;> rw [h]
  · simp [Nat.not_le_of_lt hk]
  · simp [byteAt_storeByte hs, hk]

/-- The registers after a load through I (R157). -/
theorem reg_loadThroughI (k y : RegIdx) :
    (s.loadThroughI k).reg y = if y = k ∧ s.ea k.val ≤ lastByte then s.byteAt (s.ea k.val) else s.reg y := by
  rcases s.loadThroughI_cases k with ⟨hk, h⟩ | ⟨hk, h⟩ <;> rw [h]
  · simp [Nat.not_le_of_lt hk]
  · simp [reg_setReg, hk]

/-! ## Key polls -/

/-- PollRelease reports a key and clears the latches, or reports none and latches what is held
(spec/44_timers_input.md R176). -/
theorem pollRelease_cases :
    (∃ k, s.releasedKey = some k ∧ s.pollRelease = (some k, s.clearLatches)) ∨
      (s.releasedKey = none ∧ s.pollRelease = (none, s.latchHeld)) := by
  unfold pollRelease
  cases h : s.releasedKey with
  | some k => exact .inl ⟨k, rfl, rfl⟩
  | none => exact .inr ⟨rfl, rfl⟩

end State

theorem mem_allKeys (k : Key) : k ∈ allKeys := by
  revert k; decide

/-- No key is reported exactly when no latched key is released. -/
theorem State.releasedKey_eq_none {s : State} : s.releasedKey = none ↔ ∀ k : Key, s.released k = false := by
  simp [State.releasedKey, List.find?_eq_none, mem_allKeys]

/-- The key reported is latched and released, and every lower one is not. -/
theorem State.releasedKey_eq_some {s : State} {k : Key} :
    s.releasedKey = some k ↔ s.released k = true ∧ ∀ j : Key, j < k → s.released j = false := by
  have hall : allKeys = List.finRange 16 := by decide
  rw [State.releasedKey, hall, List.find?_eq_some_iff_getElem]
  constructor
  · rintro ⟨hk, i, hi, e, hlow⟩
    refine ⟨hk, fun j hj => ?_⟩
    have hki : k.val = i := by simp [← e]
    have := hlow j.val (hki ▸ hj)
    simpa using this
  · rintro ⟨hk, hlow⟩
    refine ⟨hk, k.val, by simp, by simp, fun j hj => ?_⟩
    have := hlow ⟨j, by omega⟩ hj
    simpa using this

end Sys2Proof.Machine
end

