-- ==== Sys2Proof/Laws/Draw.lean ====
section
/-! SUPPORT. What drawing a pixel, a row and a run of rows does, in closed form: it changes V, the
framebuffer and the AOR status alone, flips the pixels the sprite sets, and sets VF where one was on. -/

namespace Sys2Proof.Machine

/-- The framebuffer cell at any numbers: false off the screen. -/
def State.cell (s : State) (x y : Nat) : Bool :=
  if h : x < 64 ∧ y < 32 then s.pixel ⟨x, h.1⟩ ⟨y, h.2⟩ else false

theorem State.cell_pixel (s : State) (px : Fin 64) (py : Fin 32) : s.cell px.val py.val = s.pixel px py := by
  simp [State.cell]

/-- `t` differs from `s` in V, and there in VF at most, in the framebuffer and in the AOR status. -/
structure DrawFrame (s t : State) : Prop where
  /-- The other fields are as before. -/
  rest : t = { s with V := t.V, fb := t.fb, aor := t.aor, aorLog := t.aorLog }
  /-- The other registers are as before. -/
  regs : SameRegsBut vF s t

theorem DrawFrame.refl (s : State) : DrawFrame s s := ⟨rfl, fun _ _ => rfl⟩

theorem DrawFrame.trans {s t u : State} (h : DrawFrame s t) (k : DrawFrame t u) : DrawFrame s u := by
  refine ⟨?_, fun y hy => (k.regs y hy).trans (h.regs y hy)⟩
  have e := k.rest
  rw [h.rest] at e
  exact e

theorem DrawFrame.byteAt {s t : State} (h : DrawFrame s t) (a : Nat) : t.byteAt a = s.byteAt a := by
  rw [h.rest]; rfl

/-- One set bit of a sprite (spec/40_display.md R101). -/
theorem drawPixel_spec (x y : Nat) (s : State) :
    DrawFrame s (drawPixel x y s) ∧
      (∀ px py, (drawPixel x y s).cell px py =
        (s.cell px py ^^ (decide (px = x) && decide (py = y) && decide (x < 64) && decide (y < 32)))) ∧
      (drawPixel x y s).reg vF = (if s.cell x y then 1 else s.reg vF) ∧
      (drawPixel x y s).aor = s.aor ∧ (drawPixel x y s).aorLog = s.aorLog := by
  by_cases h : x < 64 ∧ y < 32
  · have hc : s.cell x y = s.pixel ⟨x, h.1⟩ ⟨y, h.2⟩ := by simp [State.cell, h]
    have he : drawPixel x y s =
        (if s.cell x y then s.setReg vF 1 else s).setPixel ⟨x, h.1⟩ ⟨y, h.2⟩ (!s.cell x y) := by
      simp [drawPixel, h, hc]
    refine ⟨⟨?_, fun z hz => ?_⟩, fun px py => ?_, ?_, ?_, ?_⟩
    · rw [he]; split <;> rfl
    · rw [he]; split <;> simp [State.reg_setReg, hz]
    · by_cases hp : px < 64 ∧ py < 32
      · have hpix : (if s.cell x y then s.setReg vF 1 else s).pixel ⟨px, hp.1⟩ ⟨py, hp.2⟩ =
            s.pixel ⟨px, hp.1⟩ ⟨py, hp.2⟩ := by split <;> rfl
        simp only [he, State.cell.eq_def _ px py, dif_pos hp, State.pixel_setPixel, Fin.mk.injEq, hpix]
        by_cases hxy : px = x ∧ py = y
        · obtain ⟨rfl, rfl⟩ := hxy
          simpa [h] using hc
        · rw [if_neg hxy]
          have : (decide (px = x) && decide (py = y)) = false := by simpa using fun e => fun f => hxy ⟨e, f⟩
          simp only [this, Bool.false_and, Bool.xor_false]
      · have : ¬ (px = x ∧ py = y) := fun e => hp ⟨e.1 ▸ h.1, e.2 ▸ h.2⟩
        have : (decide (px = x) && decide (py = y)) = false := by simpa using fun e => fun f => this ⟨e, f⟩
        simp [State.cell, hp, this]
    · rw [he]; split <;> simp
    · rw [he]; split <;> rfl
    · rw [he]; split <;> rfl
  · have he : drawPixel x y s = s := by simp [drawPixel, h]
    have hc : s.cell x y = false := by simp [State.cell, h]
    have hd : (decide (x < 64) && decide (y < 32)) = false := by simpa using fun e => Nat.le_of_not_lt fun f => h ⟨e, f⟩
    rw [he]
    refine ⟨DrawFrame.refl s, fun px py => ?_, by simp [hc], rfl, rfl⟩
    rw [Bool.and_assoc, hd]
    simp

/-- The first `n` columns of a sprite row at (`x0`, `y`) set the cell (`px`, `py`). -/
def rowSets (row : Byte) (x0 y n px py : Nat) : Bool :=
  decide (py = y) && decide (py < 32) && decide (px < 64) && decide (x0 ≤ px) && decide (px < x0 + n) &&
    spriteBit row (px - x0)

theorem rowSets_succ (row : Byte) (x0 y n px py : Nat) :
    rowSets row x0 y (n + 1) px py = (rowSets row x0 y n px py ^^
      (spriteBit row n && (decide (px = x0 + n) && decide (py = y) && decide (x0 + n < 64) && decide (y < 32)))) := by
  unfold rowSets
  by_cases hx : px = x0 + n
  · subst hx
    by_cases hy : py = y
    · subst hy; simp [Bool.and_comm, Bool.and_assoc]
    · simp [hy]
  · have : (decide (px < x0 + (n + 1))) = decide (px < x0 + n) := by
      apply decide_eq_decide.2; omega
    simp [hx, this]

/-- The first `n` columns of a sprite row. -/
theorem drawRow_prefix (row : Byte) (x0 y : Nat) (s : State) (n : Nat) :
    let t := (List.range n).foldl (fun s c => if spriteBit row c then drawPixel (x0 + c) y s else s) s
    DrawFrame s t ∧ (∀ px py, t.cell px py = (s.cell px py ^^ rowSets row x0 y n px py)) ∧
      (((∃ px py, rowSets row x0 y n px py = true ∧ s.cell px py = true) → t.reg vF = 1) ∧
        ((¬ ∃ px py, rowSets row x0 y n px py = true ∧ s.cell px py = true) → t.reg vF = s.reg vF)) ∧
      t.aor = s.aor ∧ t.aorLog = s.aorLog := by
  induction n with
  | zero =>
    refine ⟨DrawFrame.refl s, fun px py => ?_, ⟨?_, fun _ => rfl⟩, rfl, rfl⟩
    · have : (decide (x0 ≤ px) && decide (px < x0)) = false := by
        simp
      simp only [List.range_zero, List.foldl_nil, rowSets, Nat.add_zero, Bool.and_assoc]
      simp [← Bool.and_assoc (decide (x0 ≤ px)), this]
    · rintro ⟨px, py, h, -⟩
      simp [rowSets] at h
      omega
  | succ n ih =>
    intro t
    obtain ⟨hf, hp, ⟨hv1, hv0⟩, ha, hl⟩ := ih
    let t' := (List.range n).foldl (fun s c => if spriteBit row c then drawPixel (x0 + c) y s else s) s
    have ht : t = if spriteBit row n then drawPixel (x0 + n) y t' else t' := by
      simp only [t, List.range_succ, List.foldl_append, List.foldl_cons, List.foldl_nil, t']
    by_cases hb : spriteBit row n = true
    · rw [if_pos hb] at ht
      obtain ⟨kf, kp, kv, ka, kl⟩ := drawPixel_spec (x0 + n) y t'
      rw [ht]
      refine ⟨hf.trans kf, fun px py => ?_, ?_, ka.trans ha, kl.trans hl⟩
      · rw [kp, hp, rowSets_succ, hb, Bool.true_and, Bool.xor_assoc]
      · have hfree : rowSets row x0 y n (x0 + n) y = false := by simp [rowSets]
        have hcell : t'.cell (x0 + n) y = s.cell (x0 + n) y := by rw [hp, hfree, Bool.xor_false]
        have hex : (∃ px py, rowSets row x0 y (n + 1) px py = true ∧ s.cell px py = true) ↔
            (∃ px py, rowSets row x0 y n px py = true ∧ s.cell px py = true) ∨ s.cell (x0 + n) y = true := by
          constructor
          · rintro ⟨px, py, h, hc⟩
            by_cases hx : px = x0 + n
            · subst hx
              have : py = y := by simp [rowSets] at h; omega
              exact .inr (this ▸ hc)
            · refine .inl ⟨px, py, ?_, hc⟩
              rw [rowSets_succ] at h
              simpa [hx] using h
          · rintro (⟨px, py, h, hc⟩ | hc)
            · refine ⟨px, py, ?_, hc⟩
              have hx : px ≠ x0 + n := by simp [rowSets] at h; omega
              rw [rowSets_succ, h]; simp [hx]
            · refine ⟨x0 + n, y, ?_, hc⟩
              have hin : x0 + n < 64 ∧ y < 32 := by
                by_contra hout
                simp [State.cell, hout] at hc
              rw [rowSets_succ, hfree, hb]; simp [hin]
        rw [hex, kv, hcell]
        by_cases hc : s.cell (x0 + n) y = true
        · simp [hc]
        · simp only [hc]
          exact ⟨fun h => hv1 (by simpa using h), fun h => hv0 (by simpa using h)⟩
    · have hb' : spriteBit row n = false := by simpa using hb
      rw [if_neg hb] at ht
      have hsame : ∀ px py, rowSets row x0 y (n + 1) px py = rowSets row x0 y n px py := by
        intro px py; rw [rowSets_succ, hb']; simp
      simp only [ht, hsame]
      exact ⟨hf, hp, ⟨hv1, hv0⟩, ha, hl⟩

/-- A whole sprite row. -/
theorem drawRow_spec (row : Byte) (x0 y : Nat) (s : State) :
    let t := drawRow row x0 y s
    DrawFrame s t ∧ (∀ px py, t.cell px py = (s.cell px py ^^ rowSets row x0 y 8 px py)) ∧
      (((∃ px py, rowSets row x0 y 8 px py = true ∧ s.cell px py = true) → t.reg vF = 1) ∧
        ((¬ ∃ px py, rowSets row x0 y 8 px py = true ∧ s.cell px py = true) → t.reg vF = s.reg vF)) ∧
      t.aor = s.aor ∧ t.aorLog = s.aorLog :=
  drawRow_prefix row x0 y s 8

/-- Rows `r0` to `r0 + n - 1` of a sprite at (`x0`, `y0`) with its bytes from `base` in the memory of
`s` set the cell (`px`, `py`). -/
def rowsSet (s : State) (x0 y0 base r0 n px py : Nat) : Bool :=
  decide (y0 + r0 ≤ py) && decide (py < y0 + r0 + n) && decide (base + (py - y0) ≤ lastByte) &&
    rowSets (s.byteAt (base + (py - y0))) x0 py 8 px py

/-- The addresses of the rows on the screen that lie beyond memory, in order. -/
def rowsOutside (y0 base r0 n : Nat) : List Nat :=
  ((List.range' r0 n).filter fun r => decide (y0 + r < 32) && decide (lastByte < base + r)).map (base + ·)

theorem rowSets_at (row : Byte) (x0 y n px py : Nat) (h : py ≠ y) : rowSets row x0 y n px py = false := by
  simp [rowSets, h]

theorem rowsSet_offScreen (s : State) (x0 y0 base r0 n px py : Nat) (h : 31 < y0 + r0) :
    rowsSet s x0 y0 base r0 n px py = false := by
  by_cases hpy : y0 + r0 ≤ py
  · have : ¬ py < 32 := by omega
    simp [rowsSet, rowSets, this]
  · simp [rowsSet, hpy]

theorem rowsOutside_offScreen (y0 base r0 n : Nat) (h : 31 < y0 + r0) : rowsOutside y0 base r0 n = [] := by
  simp only [rowsOutside, List.map_eq_nil_iff, List.filter_eq_nil_iff, List.mem_range'_1]
  rintro r ⟨hr, -⟩
  have : ¬ y0 + r < 32 := by omega
  simp [this]

/-- Consecutive rows of a sprite (spec/40_display.md R101, R103). -/
theorem drawRows_spec (x0 y0 base n : Nat) : ∀ (r0 : Nat) (s : State),
    let t := drawRows x0 y0 base (List.range' r0 n) s
    DrawFrame s t ∧ (∀ px py, t.cell px py = (s.cell px py ^^ rowsSet s x0 y0 base r0 n px py)) ∧
      (((∃ px py, rowsSet s x0 y0 base r0 n px py = true ∧ s.cell px py = true) → t.reg vF = 1) ∧
        ((¬ ∃ px py, rowsSet s x0 y0 base r0 n px py = true ∧ s.cell px py = true) → t.reg vF = s.reg vF)) ∧
      t.aor = (s.aor || !(rowsOutside y0 base r0 n).isEmpty) ∧
      t.aorLog = s.aorLog ++ rowsOutside y0 base r0 n := by
  induction n with
  | zero =>
    intro r0 s
    have hz : ∀ px py, rowsSet s x0 y0 base r0 0 px py = false := by
      intro px py
      by_cases h : y0 + r0 ≤ py
      · have : ¬ py < y0 + r0 := by omega
        simp [rowsSet, this]
      · simp [rowsSet, h]
    simp only [List.range'_zero, drawRows, hz]
    exact ⟨DrawFrame.refl s, by simp, by simp, by simp [rowsOutside], by simp [rowsOutside]⟩
  | succ n ih =>
    intro r0 s
    rw [List.range'_succ]
    by_cases hoff : 31 < y0 + r0
    · have hz := fun px py => rowsSet_offScreen s x0 y0 base r0 (n + 1) px py hoff
      simp only [drawRows, if_pos hoff, hz, rowsOutside_offScreen y0 base r0 (n + 1) hoff]
      exact ⟨DrawFrame.refl s, by simp, by simp, by simp, by simp⟩
    · have hon : y0 + r0 < 32 := by omega
      by_cases hout : lastByte < base + r0
      · obtain ⟨hf, hp, hv, ha, hl⟩ := ih (r0 + 1) (s.signalAor (base + r0))
        have hlist : rowsOutside y0 base r0 (n + 1) = (base + r0) :: rowsOutside y0 base (r0 + 1) n := by
          simp [rowsOutside, List.range'_succ, hon, hout]
        have hsame : ∀ px py, rowsSet (s.signalAor (base + r0)) x0 y0 base (r0 + 1) n px py =
            rowsSet s x0 y0 base r0 (n + 1) px py := by
          intro px py
          unfold rowsSet
          rw [State.byteAt_signalAor]
          by_cases hrow : py = y0 + r0
          · have h1 : ¬ y0 + (r0 + 1) ≤ py := by omega
            have h2 : ¬ base + (py - y0) ≤ lastByte := by
              rw [show py - y0 = r0 by omega]; omega
            simp [h1, h2]
          · have h1 : decide (y0 + (r0 + 1) ≤ py) = decide (y0 + r0 ≤ py) := by
              apply decide_eq_decide.2; omega
            have h2 : decide (py < y0 + (r0 + 1) + n) = decide (py < y0 + r0 + (n + 1)) := by
              apply decide_eq_decide.2; omega
            rw [h1, h2]
        simp only [drawRows, if_neg hoff, if_pos hout, hlist]
        refine ⟨DrawFrame.trans (t := s.signalAor (base + r0)) ⟨rfl, fun _ _ => rfl⟩ hf, fun px py => ?_, ?_, ?_, ?_⟩
        · rw [hp, hsame]; rfl
        · simp only [hsame] at hv; exact hv
        · rw [ha]; simp
        · rw [hl]; simp
      · have hin : base + r0 ≤ lastByte := by omega
        let s' := drawRow (s.byteAt (base + r0)) x0 (y0 + r0) s
        obtain ⟨kf, kp, ⟨kv1, kv0⟩, ka, kl⟩ := drawRow_spec (s.byteAt (base + r0)) x0 (y0 + r0) s
        obtain ⟨hf, hp, ⟨hv1, hv0⟩, ha, hl⟩ := ih (r0 + 1) s'
        have hlist : rowsOutside y0 base r0 (n + 1) = rowsOutside y0 base (r0 + 1) n := by
          simp [rowsOutside, List.range'_succ, hout]
        have hbytes : ∀ px py, rowsSet s' x0 y0 base (r0 + 1) n px py =
            rowsSet s x0 y0 base (r0 + 1) n px py := by
          intro px py; unfold rowsSet; rw [kf.byteAt]
        have hsplit : ∀ px py, rowsSet s x0 y0 base r0 (n + 1) px py =
            (rowSets (s.byteAt (base + r0)) x0 (y0 + r0) 8 px py ^^ rowsSet s x0 y0 base (r0 + 1) n px py) := by
          intro px py
          by_cases hrow : py = y0 + r0
          · subst hrow
            simp [rowsSet, hin]
          · rw [rowSets_at _ _ _ _ _ _ hrow, Bool.false_xor]
            unfold rowsSet
            have h1 : decide (y0 + (r0 + 1) ≤ py) = decide (y0 + r0 ≤ py) := by
              apply decide_eq_decide.2; omega
            have h2 : decide (py < y0 + (r0 + 1) + n) = decide (py < y0 + r0 + (n + 1)) := by
              apply decide_eq_decide.2; omega
            rw [h1, h2]
        have hdisj : ∀ px py, rowsSet s x0 y0 base (r0 + 1) n px py = true →
            rowSets (s.byteAt (base + r0)) x0 (y0 + r0) 8 px py = false := by
          intro px py h
          apply rowSets_at
          intro e
          subst e
          simp [rowsSet] at h
        simp only [drawRows, if_neg hoff, if_neg hout, hlist]
        refine ⟨kf.trans hf, fun px py => ?_, ⟨?_, ?_⟩, ?_, ?_⟩
        · rw [hp, kp, hbytes, hsplit, Bool.xor_assoc]
        · rintro ⟨px, py, h, hc⟩
          rw [hsplit] at h
          by_cases hl : rowsSet s x0 y0 base (r0 + 1) n px py = true
          · exact hv1 ⟨px, py, by rw [hbytes]; exact hl, by rw [kp, hdisj px py hl]; simpa using hc⟩
          · have hl' : rowsSet s x0 y0 base (r0 + 1) n px py = false := by simpa using hl
            have h1 := kv1 ⟨px, py, by simpa [hl'] using h, hc⟩
            by_cases hex : ∃ px py, rowsSet s' x0 y0 base (r0 + 1) n px py = true ∧ s'.cell px py = true
            · exact hv1 hex
            · exact (hv0 hex).trans h1
        · intro hno
          have h0 : ¬ ∃ px py, rowSets (s.byteAt (base + r0)) x0 (y0 + r0) 8 px py = true ∧ s.cell px py = true := by
            rintro ⟨px, py, h, hc⟩
            refine hno ⟨px, py, ?_, hc⟩
            rw [hsplit, h]
            by_cases hl : rowsSet s x0 y0 base (r0 + 1) n px py = true
            · rw [hdisj px py hl] at h; cases h
            · simp [hl]
          rw [hv0, kv0 h0]
          rintro ⟨px, py, h, hc⟩
          rw [hbytes] at h
          rw [kp, hdisj px py h, Bool.xor_false] at hc
          exact hno ⟨px, py, by rw [hsplit, h, hdisj px py h]; rfl, hc⟩
        · rw [ha, ka]
        · rw [hl, kl]

end Sys2Proof.Machine
end

