-- ==== Sys2Proof/Laws/Encoding.lean ====
section
/-! SUPPORT. The fields of a word laid out in each format (spec/30_encoding.md R71, R73), and the bytes of a
word (spec/20_memory.md R55). -/

namespace Sys2Proof

theorem append_toNat {m n : Nat} (a : BitVec m) (b : BitVec n) : (a ++ b).toNat = 2 ^ n * a.toNat + b.toNat := by
  rw [BitVec.toNat_append, Nat.shiftLeft_eq, Nat.mul_comm, ← Nat.two_pow_add_eq_or_of_lt b.isLt]

theorem extract_toNat {w : Nat} (lo len : Nat) (v : BitVec w) :
    (v.extractLsb' lo len).toNat = v.toNat / 2 ^ lo % 2 ^ len := by
  rw [BitVec.extractLsb'_toNat, Nat.shiftRight_eq_div_pow]

/-- A word is 256 times its high byte plus its low byte. -/
theorem joinBytes_toNat (hi lo : Byte) : (joinBytes hi lo).toNat = 256 * hi.toNat + lo.toNat := append_toNat hi lo

theorem highByte_toNat (w : Word) : (highByte w).toNat = w.toNat / 256 := by
  have := w.isLt
  unfold highByte
  rw [extract_toNat]
  omega

theorem lowByte_toNat (w : Word) : (lowByte w).toNat = w.toNat % 256 := by
  unfold lowByte
  rw [extract_toNat]
  omega

/-- The two bytes of a word make the word. -/
@[simp] theorem joinBytes_highByte_lowByte (w : Word) : joinBytes (highByte w) (lowByte w) = w := by
  apply BitVec.eq_of_toNat_eq
  rw [joinBytes_toNat, highByte_toNat, lowByte_toNat]
  omega

theorem regBits_toNat (x : RegIdx) : (regBits x).toNat = x.val := rfl

theorem formatA_toNat (f : Nibble) (nnn : Addr) : (formatA f nnn).toNat = 4096 * f.toNat + nnn.toNat :=
  append_toNat f nnn

theorem formatI_toNat (f : Nibble) (x : RegIdx) (nn : Byte) :
    (formatI f x nn).toNat = 4096 * f.toNat + 256 * x.val + nn.toNat := by
  unfold formatI
  rw [append_toNat, append_toNat, regBits_toNat]
  omega

theorem formatR_toNat (f : Nibble) (x y : RegIdx) (n : Nibble) :
    (formatR f x y n).toNat = 4096 * f.toNat + 256 * x.val + 16 * y.val + n.toNat := by
  unfold formatR
  rw [append_toNat, append_toNat, append_toNat, regBits_toNat, regBits_toNat]
  omega

@[simp] theorem fieldF_formatA (f : Nibble) (nnn : Addr) : fieldF (formatA f nnn) = f := by
  apply BitVec.eq_of_toNat_eq
  rw [fieldF, extract_toNat, formatA_toNat]
  omega

@[simp] theorem fieldNNN_formatA (f : Nibble) (nnn : Addr) : fieldNNN (formatA f nnn) = nnn := by
  apply BitVec.eq_of_toNat_eq
  rw [fieldNNN, extract_toNat, formatA_toNat]
  omega

@[simp] theorem fieldF_formatI (f : Nibble) (x : RegIdx) (nn : Byte) : fieldF (formatI f x nn) = f := by
  apply BitVec.eq_of_toNat_eq
  rw [fieldF, extract_toNat, formatI_toNat]
  omega

@[simp] theorem fieldX_formatI (f : Nibble) (x : RegIdx) (nn : Byte) : fieldX (formatI f x nn) = x := by
  apply Fin.ext
  rw [fieldX, BitVec.val_toFin, extract_toNat, formatI_toNat]
  omega

@[simp] theorem fieldNN_formatI (f : Nibble) (x : RegIdx) (nn : Byte) : fieldNN (formatI f x nn) = nn := by
  apply BitVec.eq_of_toNat_eq
  rw [fieldNN, extract_toNat, formatI_toNat]
  omega

@[simp] theorem fieldF_formatR (f : Nibble) (x y : RegIdx) (n : Nibble) : fieldF (formatR f x y n) = f := by
  apply BitVec.eq_of_toNat_eq
  rw [fieldF, extract_toNat, formatR_toNat]
  omega

@[simp] theorem fieldX_formatR (f : Nibble) (x y : RegIdx) (n : Nibble) : fieldX (formatR f x y n) = x := by
  apply Fin.ext
  rw [fieldX, BitVec.val_toFin, extract_toNat, formatR_toNat]
  omega

@[simp] theorem fieldY_formatR (f : Nibble) (x y : RegIdx) (n : Nibble) : fieldY (formatR f x y n) = y := by
  apply Fin.ext
  rw [fieldY, BitVec.val_toFin, extract_toNat, formatR_toNat]
  omega

@[simp] theorem fieldN_formatR (f : Nibble) (x y : RegIdx) (n : Nibble) : fieldN (formatR f x y n) = n := by
  apply BitVec.eq_of_toNat_eq
  rw [fieldN, extract_toNat, formatR_toNat]
  omega

/-- A word is its fields: F X NN. -/
theorem formatI_fields (w : Word) : formatI (fieldF w) (fieldX w) (fieldNN w) = w := by
  apply BitVec.eq_of_toNat_eq
  rw [formatI_toNat, fieldF, fieldX, fieldNN, BitVec.val_toFin, extract_toNat, extract_toNat, extract_toNat]
  omega

/-- A word is its fields: F NNN. -/
theorem formatA_fields (w : Word) : formatA (fieldF w) (fieldNNN w) = w := by
  apply BitVec.eq_of_toNat_eq
  rw [formatA_toNat, fieldF, fieldNNN, extract_toNat, extract_toNat]
  omega

/-- A word is its fields: F X Y N. -/
theorem formatR_fields (w : Word) : formatR (fieldF w) (fieldX w) (fieldY w) (fieldN w) = w := by
  apply BitVec.eq_of_toNat_eq
  rw [formatR_toNat, fieldF, fieldX, fieldY, fieldN, BitVec.val_toFin, BitVec.val_toFin, extract_toNat,
    extract_toNat, extract_toNat, extract_toNat]
  omega

end Sys2Proof
end

