-- ==== Sys2Proof/Laws/Exec.lean ====
section
/-! SUPPORT. What the looping meanings do: storing and loading a run of registers through I, storing decimal
digits, drawing. Each lemma says everything its meaning can do, so that no proof unfolds the loop. -/

namespace Sys2Proof.Machine

/-- 2NNN in full (spec/41_control_flow.md R113). -/
theorem execCall_eq (nnn : Addr) (s : State) : execCall nnn s =
    .next (if s.sp = s.cfg.stackCapacity then s.raiseFatal .stackOverflow s.instrAddr
      else { s with stack := s.stack.set s.sp s.pc, sp := s.sp + 1, pc := zextAddr nnn }) := by
  unfold execCall
  rw [State.push_eq]
  by_cases h : s.sp = s.cfg.stackCapacity
  · rw [if_pos h, if_pos h]
  · rw [if_neg h, if_neg h]; rfl

/-- 00EE in full (R111). -/
theorem execRet_eq (s : State) : execRet s =
    .next (if s.sp = 0 then s.raiseFatal .stackUnderflow s.instrAddr
      else { s with pc := s.slot (s.sp - 1), sp := s.sp - 1 }) := by
  unfold execRet
  cases h : s.sp with
  | zero => rw [State.pop_empty h]; rfl
  | succ k => rw [State.pop_succ h]; rfl

/-- FX0A in full (spec/44_timers_input.md R175, R176). -/
theorem execLdVxK_eq (x : RegIdx) (s : State) : execLdVxK x s =
    .next (match s.releasedKey with
      | some k => s.clearLatches.setReg x (BitVec.ofNat 8 k.val)
      | none => s.latchHeld.setPc (s.pc - 2)) := by
  unfold execLdVxK State.pollRelease
  cases s.releasedKey <;> rfl

/-- The registers `regsUpTo x` lists are V0 to Vx. -/
theorem mem_regsUpTo (x k : RegIdx) : k ∈ regsUpTo x ↔ k ≤ x := by
  revert x k; decide

theorem regsUpTo_nodup (x : RegIdx) : (regsUpTo x).Nodup := by
  revert x; decide

theorem regsUpTo_val (x : RegIdx) : (regsUpTo x).map Fin.val = List.range (x.val + 1) := by
  revert x; decide

/-- `t` differs from `s` in memory and the AOR status alone. -/
def StoreFrame (s t : State) : Prop := t = { s with mem := t.mem, aor := t.aor, aorLog := t.aorLog }

theorem StoreFrame.trans {s t u : State} (h : StoreFrame s t) (k : StoreFrame t u) : StoreFrame s u := by
  unfold StoreFrame at h k ⊢
  rw [h] at k
  exact k

/-- `t` differs from `s` in V and the AOR status alone. -/
def LoadFrame (s t : State) : Prop := t = { s with V := t.V, aor := t.aor, aorLog := t.aorLog }

theorem LoadFrame.trans {s t u : State} (h : LoadFrame s t) (k : LoadFrame t u) : LoadFrame s u := by
  unfold LoadFrame at h k ⊢
  rw [h] at k
  exact k

/-- The AOR addresses of accesses at the offsets `ks`, in order. -/
def State.aorOf (s : State) (ks : List Nat) : List Nat := (ks.filter fun k => lastByte < s.ea k).map s.ea

theorem State.aorOf_cons (s : State) (k : Nat) (ks : List Nat) :
    s.aorOf (k :: ks) = (if lastByte < s.ea k then [s.ea k] else []) ++ s.aorOf ks := by
  by_cases h : lastByte < s.ea k <;> simp [State.aorOf, h]

theorem State.aorOf_congr {s t : State} (h : t.I = s.I) (ks : List Nat) : t.aorOf ks = s.aorOf ks := by
  have : ∀ k, t.ea k = s.ea k := fun k => by simp [State.ea, State.indexBase, h]
  simp only [State.aorOf, funext this]

/-- The AOR part of an access's effect, accumulated over `ks`. -/
def AorAfter (s t : State) (ks : List Nat) : Prop :=
  t.aor = (s.aor || !(s.aorOf ks).isEmpty) ∧ t.aorLog = s.aorLog ++ s.aorOf ks

theorem AorAfter.cons {s t u : State} {k : Nat} {ks : List Nat} (hI : t.I = s.I)
    (h1 : t.aor = (s.aor || decide (lastByte < s.ea k)) ∧
      t.aorLog = s.aorLog ++ if lastByte < s.ea k then [s.ea k] else [])
    (h2 : AorAfter t u ks) : AorAfter s u (k :: ks) := by
  refine ⟨?_, ?_⟩
  · rw [h2.1, h1.1, State.aorOf_congr hI, State.aorOf_cons]
    by_cases h : lastByte < s.ea k <;> simp [h]
  · rw [h2.2, h1.2, State.aorOf_congr hI, State.aorOf_cons, List.append_assoc]

/-- A run of stores through I: the value `f k` at offset `k`, for each of `ks`. -/
theorem storeRun_spec (f : RegIdx → Byte) : ∀ (ks : List RegIdx) (s : State), ks.Nodup →
    let t := ks.foldl (fun t k => t.storeThroughI k.val (f k)) s
    t = { s with mem := t.mem, aor := t.aor, aorLog := t.aorLog } ∧
      AorAfter s t (ks.map Fin.val) ∧
      (s.mem.wf = true → t.mem.wf = true ∧
        (∀ k ∈ ks, s.ea k.val ≤ lastByte → t.byteAt (s.ea k.val) = f k) ∧
        (∀ a, (∀ k ∈ ks, a = s.ea k.val → lastByte < a) → t.byteAt a = s.byteAt a)) := by
  intro ks
  induction ks with
  | nil => intro s _; exact ⟨rfl, ⟨by simp [State.aorOf], by simp [State.aorOf]⟩, fun h => ⟨h, by simp, fun _ _ => rfl⟩⟩
  | cons k ks ih =>
    intro s hnd
    obtain ⟨hk, hnd'⟩ := List.nodup_cons.1 hnd
    let s' := s.storeThroughI k.val (f k)
    have hs' := s.storeThroughI_eq k.val (f k)
    have hI : s'.I = s.I := by rw [show s' = _ from hs']
    have hea : ∀ j, s'.ea j = s.ea j := fun j => by simp [s']
    obtain ⟨h1, h2, h3⟩ := ih s' hnd'
    refine ⟨?_, ?_, fun hwf => ?_⟩
    · exact StoreFrame.trans hs' h1
    · exact AorAfter.cons hI (s.aor_storeThroughI k.val (f k)) h2
    · obtain ⟨g1, g2, g3⟩ := h3 (State.wf_storeThroughI hwf k.val (f k))
      refine ⟨g1, fun j hj hle => ?_, fun a ha => ?_⟩
      · rcases List.mem_cons.1 hj with rfl | hj
        · have : ∀ j' ∈ ks, s.ea j.val = s'.ea j'.val → lastByte < s.ea j.val := by
            intro j' hj' e
            rw [hea] at e
            simp only [State.ea] at e
            exact absurd (Fin.ext (by omega) : j = j') (fun e' => hk (e' ▸ hj'))
          have e := g3 (s.ea j.val) this
          simp only [List.foldl_cons]
          rw [show (List.foldl _ (s.storeThroughI j.val (f j)) ks).byteAt (s.ea j.val) = _ from e,
            show s'.byteAt (s.ea j.val) = _ from State.byteAt_storeThroughI hwf j.val (f j) (s.ea j.val)]
          simp [hle]
        · have := g2 j hj (by rw [hea]; exact hle)
          rw [hea] at this
          exact this
      · have e := g3 a (fun j hj e => ha j (List.mem_cons_of_mem k hj) (by rw [e, hea]))
        simp only [List.foldl_cons]
        rw [show (List.foldl _ (s.storeThroughI k.val (f k)) ks).byteAt a = _ from e,
          show s'.byteAt a = _ from State.byteAt_storeThroughI hwf k.val (f k) a]
        have := ha k List.mem_cons_self
        by_cases hak : a = s.ea k.val
        · have h' := this hak
          rw [hak] at h'
          simp [hak, Nat.not_le_of_lt h']
        · simp [hak]

/-- A run of loads through I. -/
theorem loadRun_spec : ∀ (ks : List RegIdx) (s : State), ks.Nodup →
    let t := ks.foldl (fun t k => t.loadThroughI k) s
    t = { s with V := t.V, aor := t.aor, aorLog := t.aorLog } ∧
      AorAfter s t (ks.map Fin.val) ∧
      (∀ k, t.reg k = if k ∈ ks ∧ s.ea k.val ≤ lastByte then s.byteAt (s.ea k.val) else s.reg k) := by
  intro ks
  induction ks with
  | nil => intro s _; exact ⟨rfl, ⟨by simp [State.aorOf], by simp [State.aorOf]⟩, fun k => by simp⟩
  | cons k ks ih =>
    intro s hnd
    obtain ⟨hk, hnd'⟩ := List.nodup_cons.1 hnd
    let s' := s.loadThroughI k
    have hs' := s.loadThroughI_eq k
    have hI : s'.I = s.I := by rw [show s' = _ from hs']
    have hea : ∀ j, s'.ea j = s.ea j := fun j => by simp [s']
    have hby : ∀ a, s'.byteAt a = s.byteAt a := fun a => by simp [s']
    obtain ⟨h1, h2, h3⟩ := ih s' hnd'
    refine ⟨?_, AorAfter.cons hI (s.aor_loadThroughI k) h2, fun j => ?_⟩
    · exact LoadFrame.trans hs' h1
    · have e := h3 j
      simp only [List.foldl_cons]
      rw [show (List.foldl _ (s.loadThroughI k) ks).reg j = _ from e, hea, hby,
        show s'.reg j = _ from s.reg_loadThroughI k j]
      by_cases hjk : j = k
      · subst hjk
        by_cases hle : s.ea j.val ≤ lastByte <;> simp [hk, hle]
      · simp [hjk]

/-- FX55 in full. -/
theorem execStRegs_spec (x : RegIdx) (s : State) : ∃ t, execStRegs x s = .next t ∧
    t = { s with mem := t.mem, aor := t.aor, aorLog := t.aorLog } ∧
    AorAfter s t (List.range (x.val + 1)) ∧
    (s.mem.wf = true → t.mem.wf = true ∧
      (∀ k : RegIdx, k ≤ x → s.ea k.val ≤ lastByte → t.byteAt (s.ea k.val) = s.reg k) ∧
      (∀ a, (∀ k : RegIdx, k ≤ x → a = s.ea k.val → lastByte < a) → t.byteAt a = s.byteAt a)) := by
  obtain ⟨h1, h2, h3⟩ := storeRun_spec s.reg (regsUpTo x) s (regsUpTo_nodup x)
  rw [regsUpTo_val] at h2
  simp only [mem_regsUpTo] at h3
  exact ⟨_, rfl, h1, h2, h3⟩

/-- FX65 in full. -/
theorem execLdRegs_spec (x : RegIdx) (s : State) : ∃ t, execLdRegs x s = .next t ∧
    t = { s with V := t.V, aor := t.aor, aorLog := t.aorLog } ∧
    AorAfter s t (List.range (x.val + 1)) ∧
    (∀ k : RegIdx, t.reg k = if k ≤ x ∧ s.ea k.val ≤ lastByte then s.byteAt (s.ea k.val) else s.reg k) := by
  obtain ⟨h1, h2, h3⟩ := loadRun_spec (regsUpTo x) s (regsUpTo_nodup x)
  rw [regsUpTo_val] at h2
  simp only [mem_regsUpTo] at h3
  exact ⟨_, rfl, h1, h2, h3⟩

/-- The digit FX33 stores at offset `k`. -/
def decimalDigit (v : Byte) (k : RegIdx) : Byte :=
  if k = 0 then hundreds v else if k = 1 then tens v else ones v

/-- FX33 in full. -/
theorem execLdB_spec (x : RegIdx) (s : State) : ∃ t, execLdB x s = .next t ∧
    t = { s with mem := t.mem, aor := t.aor, aorLog := t.aorLog } ∧
    AorAfter s t (List.range 3) ∧
    (s.mem.wf = true → t.mem.wf = true ∧
      (∀ k : RegIdx, k ≤ 2 → s.ea k.val ≤ lastByte → t.byteAt (s.ea k.val) = decimalDigit (s.reg x) k) ∧
      (∀ a, (∀ k : RegIdx, k ≤ 2 → a = s.ea k.val → lastByte < a) → t.byteAt a = s.byteAt a)) := by
  obtain ⟨h1, h2, h3⟩ := storeRun_spec (decimalDigit (s.reg x)) (regsUpTo 2) s (regsUpTo_nodup 2)
  rw [regsUpTo_val] at h2
  simp only [mem_regsUpTo] at h3
  exact ⟨_, rfl, h1, h2, h3⟩

/-- The cells a sprite sets are those of its closed form. -/
theorem rowsSet_spriteSets (x y : RegIdx) (n : Nibble) (s : State) (px : Fin 64) (py : Fin 32) :
    rowsSet (s.setReg vF 0) (s.spriteCol x) (s.spriteRow y) s.indexBase 0 n.toNat px.val py.val =
      s.spriteSets x y n px py := by
  simp only [rowsSet, rowSets, State.spriteSets, State.ea, Nat.add_zero, State.byteAt_setReg, px.isLt,
    py.isLt, decide_true, Bool.true_and]
  ac_rfl

/-- A cell that a sprite sets is on the screen. -/
theorem rowsSet_onScreen {s : State} {x0 y0 base r0 n px py : Nat}
    (h : rowsSet s x0 y0 base r0 n px py = true) : px < 64 ∧ py < 32 := by
  simp [rowsSet, rowSets] at h
  omega

theorem filter_range_lt (b m : Nat) :
    (List.range m).filter (fun r => decide (b + r < 32)) = List.range (min m (32 - b)) := by
  induction m with
  | zero => simp
  | succ m ih =>
    rw [List.range_succ, List.filter_append, ih]
    by_cases h : b + m < 32
    · rw [show min (m + 1) (32 - b) = min m (32 - b) + 1 by omega,
        show min m (32 - b) = m by omega, List.range_succ]
      simp [h]
    · rw [show min (m + 1) (32 - b) = min m (32 - b) by omega]
      simp [h]

theorem rowsOutside_aorOf (y : RegIdx) (n : Nibble) (s : State) :
    rowsOutside (s.spriteRow y) s.indexBase 0 n.toNat = s.aorOf (List.range (s.rowsOnScreen y n)) := by
  have hm : s.ea = (s.indexBase + ·) := rfl
  rw [rowsOutside, State.aorOf, hm, State.rowsOnScreen, ← List.range_eq_range', ← filter_range_lt,
    List.filter_filter]
  congr 2
  funext r
  rw [Bool.and_comm]

/-- DXYN in full (spec/40_display.md R101 to R103). -/
theorem execDrw_spec (x y : RegIdx) (n : Nibble) (s : State) : ∃ t, execDrw x y n s = .next t ∧
    t = { s with V := t.V, fb := t.fb, aor := t.aor, aorLog := t.aorLog } ∧
    SameRegsBut vF s t ∧
    (∀ px py, t.pixel px py = (s.pixel px py ^^ s.spriteSets x y n px py)) ∧
    ((∃ px py, s.spriteSets x y n px py = true ∧ s.pixel px py = true) → t.reg vF = 1) ∧
    ((¬ ∃ px py, s.spriteSets x y n px py = true ∧ s.pixel px py = true) → t.reg vF = 0) ∧
    AorAfter s t (List.range (s.rowsOnScreen y n)) := by
  obtain ⟨hf, hp, ⟨hv1, hv0⟩, ha, hl⟩ :=
    drawRows_spec (s.spriteCol x) (s.spriteRow y) s.indexBase n.toNat 0 (s.setReg vF 0)
  rw [rowsOutside_aorOf] at ha hl
  rw [← List.range_eq_range'] at hf hp hv1 hv0 ha hl
  refine ⟨_, rfl, ?_, ?_, fun px py => ?_, ?_, ?_, ha, hl⟩
  · exact hf.rest
  · exact fun z hz => (hf.regs z hz).trans (s.reg_setReg_ne hz 0)
  · have := hp px.val py.val
    rw [State.cell_pixel, State.cell_pixel, rowsSet_spriteSets] at this
    exact this
  · rintro ⟨px, py, h, hc⟩
    refine hv1 ⟨px.val, py.val, ?_, ?_⟩
    · rw [rowsSet_spriteSets]; exact h
    · rw [State.cell_pixel]; exact hc
  · intro hno
    refine (hv0 ?_).trans (s.reg_setReg_self vF 0)
    rintro ⟨px, py, h, hc⟩
    have hon := rowsSet_onScreen h
    refine hno ⟨⟨px, hon.1⟩, ⟨py, hon.2⟩, ?_, ?_⟩
    · rw [← rowsSet_spriteSets]; exact h
    · rw [← State.cell_pixel]; exact hc

end Sys2Proof.Machine
end

