-- ==== Sys2Proof/Laws/Step.lean ====
section
/-! SUPPORT. What a step can do, said once: one lemma for the Executor's step, one for a turn, and that no
instruction reads or writes the schedule. -/

namespace Sys2Proof.Machine

/-- An Executor step that answers a next state: the fatal fetch, or the decoded instruction
(spec/30_encoding.md R76). -/
theorem executorStep_cases {s t : State} (h : executorStep s = .next t) :
    s.halted = none ∧
      ((lastFetch < s.pc.toNat ∧ t = s.raiseFatal .pcOutOfBounds s.pc) ∨
        (s.pc.toNat ≤ lastFetch ∧ exec s.fetched s.advance = .next t)) := by
  unfold executorStep at h
  cases hh : s.halted with
  | some kind => simp [hh] at h
  | none =>
    rw [hh] at h
    simp only at h
    split at h
    · exact ⟨rfl, .inl ⟨‹_›, by injection h with h; exact h.symm⟩⟩
    · exact ⟨rfl, .inr ⟨by omega, h⟩⟩

/-- A halted Executor answers its fault. -/
theorem executorStep_halted {s : State} {kind : FatalKind} (h : s.halted = some kind) :
    executorStep s = .fault (.executorHalted kind) := by
  simp [executorStep, h]

/-- A fetch in range runs the decoded instruction. -/
theorem executorStep_run {s : State} (h : s.halted = none) (hp : s.pc.toNat ≤ lastFetch) :
    executorStep s = exec s.fetched s.advance := by
  simp [executorStep, h, Nat.not_lt.2 hp]

/-- A fetch out of range is fatal. -/
theorem executorStep_fatal {s : State} (h : s.halted = none) (hp : lastFetch < s.pc.toNat) :
    executorStep s = .next (s.raiseFatal .pcOutOfBounds s.pc) := by
  simp [executorStep, h, hp]

/-- A step that answers a next state: an Executor step, an Executor turn passed over, a tick, or new
keys; the schedule loses the turn taken. -/
theorem step_cases {s t : State} (h : step s = .next t) :
    executorStep (s.withSchedule s.schedule.tail) = .next t ∨
      (s.halted.isSome = true ∧ t = s.withSchedule s.schedule.tail) ∨
      t = (s.withSchedule s.schedule.tail).tick ∨
      ∃ held, t = (s.withSchedule s.schedule.tail).setKeys held := by
  unfold step takeTurn at h
  cases hs : s.schedule with
  | nil =>
    rw [hs] at h
    refine .inl ?_
    have : s.withSchedule [] = s := by unfold State.withSchedule; rw [← hs]
    rw [List.tail_nil, this]
    exact h
  | cons turn rest =>
    rw [hs] at h
    cases turn with
    | executor =>
      simp only at h
      split at h
      · exact .inr (.inl ⟨‹_›, by injection h with h; exact h.symm⟩)
      · exact .inl h
    | tick => exact .inr (.inr (.inl (by injection h with h; exact h.symm)))
    | keys held => exact .inr (.inr (.inr ⟨held, by injection h with h; exact h.symm⟩))

/-- Folding commutes with a change that each step of the fold commutes with. -/
theorem foldl_commutes {α : Type} {g : State → State} {op : State → α → State}
    (h : ∀ s a, op (g s) a = g (op s a)) (ks : List α) (s : State) :
    ks.foldl op (g s) = g (ks.foldl op s) := by
  induction ks generalizing s with
  | nil => rfl
  | cons k ks ih => simp only [List.foldl_cons, h, ih]

section schedule

variable (r : List Turn)

theorem storeThroughI_withSchedule (s : State) (k : Nat) (v : Byte) :
    (s.withSchedule r).storeThroughI k v = (s.storeThroughI k v).withSchedule r := by
  unfold State.storeThroughI
  rw [State.ea_withSchedule]
  split <;> rfl

theorem loadThroughI_withSchedule (s : State) (k : RegIdx) :
    (s.withSchedule r).loadThroughI k = (s.loadThroughI k).withSchedule r := by
  unfold State.loadThroughI
  rw [State.ea_withSchedule]
  split <;> rfl

theorem drawPixel_withSchedule (x y : Nat) (s : State) :
    drawPixel x y (s.withSchedule r) = (drawPixel x y s).withSchedule r := by
  unfold drawPixel
  split
  · rename_i h
    cases hp : s.pixel ⟨x, h.1⟩ ⟨y, h.2⟩ <;> simp only [State.pixel_withSchedule, hp] <;> rfl
  · rfl

theorem drawRow_withSchedule (row : Byte) (x0 y : Nat) (s : State) :
    drawRow row x0 y (s.withSchedule r) = (drawRow row x0 y s).withSchedule r := by
  unfold drawRow
  exact foldl_commutes (g := fun s => s.withSchedule r)
    (fun s c => by split <;> simp [drawPixel_withSchedule]) _ s

theorem drawRows_withSchedule (x0 y0 base : Nat) : ∀ (rs : List Nat) (s : State),
    drawRows x0 y0 base rs (s.withSchedule r) = (drawRows x0 y0 base rs s).withSchedule r := by
  intro rs
  induction rs with
  | nil => intro s; rfl
  | cons k rs ih =>
    intro s
    simp only [drawRows]
    split
    · rfl
    · split
      · exact ih (s.signalAor (base + k))
      · rw [State.byteAt_withSchedule, drawRow_withSchedule, ih]

/-- No instruction reads or writes the schedule. -/
theorem exec_withSchedule (i : Instr) {s t : State} (h : exec i s = .next t) :
    exec i (s.withSchedule r) = .next (t.withSchedule r) := by
  have key : exec i (s.withSchedule r) =
      match exec i s with
      | .next t => .next (t.withSchedule r)
      | .fault f => .fault f
      | .refused f => .refused f := by
    cases i with
    | ret =>
      simp only [exec, execRet_eq]
      by_cases h : s.sp = 0
      · rw [if_pos (show (s.withSchedule r).sp = 0 from h), if_pos h]; rfl
      · rw [if_neg (show ¬ (s.withSchedule r).sp = 0 from h), if_neg h]; rfl
    | call nnn =>
      simp only [exec, execCall_eq]
      by_cases h : s.sp = s.cfg.stackCapacity
      · rw [if_pos (show (s.withSchedule r).sp = (s.withSchedule r).cfg.stackCapacity from h), if_pos h]; rfl
      · rw [if_neg (show ¬ (s.withSchedule r).sp = (s.withSchedule r).cfg.stackCapacity from h), if_neg h]; rfl
    | drw x y n =>
      simp only [exec, execDrw]
      rw [← drawRows_withSchedule]
      rfl
    | stRegs x =>
      simp only [exec, execStRegs]
      rw [← foldl_commutes (g := fun s => s.withSchedule r)
        (fun t k => storeThroughI_withSchedule r t k.val (s.reg k))]
      rfl
    | ldRegs x =>
      simp only [exec, execLdRegs]
      rw [← foldl_commutes (g := fun s => s.withSchedule r) (fun t k => loadThroughI_withSchedule r t k)]
    | ldB x =>
      simp only [exec, execLdB, storeThroughI_withSchedule, State.reg_withSchedule]
    | ldVxK x =>
      simp only [exec, execLdVxK_eq]
      rw [show (s.withSchedule r).releasedKey = s.releasedKey from rfl]
      cases s.releasedKey <;> rfl
    | addI x =>
      simp only [exec, execAddI, State.writeIndexFlag]
      rw [show (s.withSchedule r).indexSum x = s.indexSum x from rfl]
      split
      · rfl
      · cases h : s.cfg.fx1eClearsVf <;> simp only [State.setI_cfg, State.withSchedule_cfg, h] <;> rfl
    | addReg x y | subReg x y | subnReg x y =>
      cases h : s.cfg.flagWriteLast <;>
        simp only [exec, execAddReg, execSubReg, execSubnReg, State.writeResultAndFlag, State.withSchedule_cfg, h] <;>
        rfl
    | shrReg x y | shlReg x y =>
      cases h : s.cfg.flagWriteLast <;> cases k : s.cfg.shiftCopiesVy <;>
        simp [exec, execShrReg, execShlReg, State.writeResultAndFlag, State.shiftCopy, h, k] <;> rfl
    | seImm x nn | sneImm x nn =>
      simp only [exec, execSeImm, execSneImm, State.skipIf_eq]; rfl
    | seReg x y n | sneReg x y n =>
      simp only [exec, execSeReg, execSneReg, State.skipIf_eq]; rfl
    | skp x | sknp x =>
      simp only [exec, execSkp, execSknp, State.skipIf_eq]; rfl
    | _ => rfl
  rw [key, h]

end schedule

/-- Nor does the Executor's step. -/
theorem executorStep_withSchedule (r : List Turn) {s t : State} (h : executorStep s = .next t) :
    executorStep (s.withSchedule r) = .next (t.withSchedule r) := by
  obtain ⟨hh, ⟨hp, rfl⟩ | ⟨hp, h⟩⟩ := executorStep_cases h
  · rw [executorStep_fatal (s := s.withSchedule r) hh hp]; rfl
  · rw [executorStep_run (s := s.withSchedule r) hh hp]
    exact exec_withSchedule r _ h

end Sys2Proof.Machine
end

