-- ==== Sys2Proof/Laws/Frame.lean ====
section
/-! SUPPORT. What each instruction can change, said once: a proof about every instruction cites the frame and
never unfolds a meaning. -/

namespace Sys2Proof.Machine

/-- What `i` leaves of `s` in `t`, its case of the frame. -/
def FrameOf (i : Instr) (s t : State) : Prop :=
  match i with
  | .cls => t = { s with fb := blankScreen }
  | .ret => s.sp = 0 ∧ t = s.raiseFatal .stackUnderflow s.instrAddr ∨
      0 < s.sp ∧ t = { s with pc := s.slot (s.sp - 1), sp := s.sp - 1 }
  | .call nnn => s.sp = s.cfg.stackCapacity ∧ t = s.raiseFatal .stackOverflow s.instrAddr ∨
      s.sp ≠ s.cfg.stackCapacity ∧ t = { s with stack := s.stack.set s.sp s.pc, sp := s.sp + 1, pc := zextAddr nnn }
  | .jp nnn => t = { s with pc := zextAddr nnn }
  | .jpOff nnn => t = { s with pc := zextAddr nnn + zextByte (s.jumpOffset nnn) }
  | .seImm _ _ | .sneImm _ _ | .seReg _ _ _ | .sneReg _ _ _ | .skp _ | .sknp _ =>
      t = s ∨ t = { s with pc := s.pc + 2 }
  | .ldImm x _ | .addImm x _ | .ldReg x _ | .orReg x _ | .andReg x _ | .xorReg x _ | .ldVxDt x =>
      t = { s with V := t.V } ∧ SameRegsBut x s t
  | .addReg x _ | .subReg x _ | .shrReg x _ | .subnReg x _ | .shlReg x _ =>
      t = { s with V := t.V } ∧ ∀ y, y ≠ x → y ≠ vF → t.reg y = s.reg y
  | .rnd x _ => t = { s with V := t.V, draws := s.draws + 1 } ∧ SameRegsBut x s t
  | .ldI nnn => t = { s with I := zextAddr nnn }
  | .ldF x => t = { s with I := zextAddr s.cfg.fontBase + 5 * zextByte (s.reg x) }
  | .addI x => t = { s with I := s.indexSum x, V := t.V } ∧ SameRegsBut vF s t
  | .drw _ _ _ => t = { s with V := t.V, fb := t.fb, aor := t.aor, aorLog := t.aorLog } ∧ SameRegsBut vF s t
  | .ldB _ | .stRegs _ => t = { s with mem := t.mem, aor := t.aor, aorLog := t.aorLog }
  | .ldRegs x => t = { s with V := t.V, aor := t.aor, aorLog := t.aorLog } ∧ ∀ y, x < y → t.reg y = s.reg y
  | .ldVxK x => t = { s with V := t.V, latch := noKeys } ∧ SameRegsBut x s t ∨
      t = { s with pc := s.pc - 2, latch := s.latchHeld.latch }
  | .ldDtVx x => t = { s with DT := s.reg x }
  | .ldStVx x => t = { s with ST := s.reg x }
  | .sys _ | .nopE _ _ | .nopF _ _ | .nop5XYN _ _ _ | .nop9XYN _ _ _ | .nop8XY8 _ _ | .nop8XY9 _ _
  | .nop8XYA _ _ | .nop8XYB _ _ | .nop8XYC _ _ | .nop8XYD _ _ | .nop8XYF _ _ => t = s

theorem skipIf_cases (s : State) (b : Bool) : s.skipIf b = s ∨ s.skipIf b = { s with pc := s.pc + 2 } := by
  cases b
  · exact .inl rfl
  · exact .inr rfl

theorem writeResultAndFlag_frame (s : State) (x : RegIdx) (res flag : Byte) :
    s.writeResultAndFlag x res flag = { s with V := (s.writeResultAndFlag x res flag).V } ∧
      ∀ y, y ≠ x → y ≠ vF → (s.writeResultAndFlag x res flag).reg y = s.reg y :=
  ⟨s.writeResultAndFlag_eq x res flag, fun y hx hF => by
    rw [s.reg_writeResultAndFlag, if_neg (fun h => hF h.1), if_neg hx]⟩

theorem shiftCopy_frame (s : State) (x y : RegIdx) :
    s.shiftCopy x y = { s with V := (s.shiftCopy x y).V } ∧ SameRegsBut x s (s.shiftCopy x y) := by
  unfold State.shiftCopy
  split
  · exact ⟨rfl, fun z hz => s.reg_setReg_ne hz _⟩
  · exact ⟨rfl, fun _ _ => rfl⟩

theorem shift_frame (s : State) (x y : RegIdx) (res flag : Byte) :
    let t := (s.shiftCopy x y).writeResultAndFlag x res flag
    t = { s with V := t.V } ∧ ∀ z, z ≠ x → z ≠ vF → t.reg z = s.reg z := by
  obtain ⟨h1, h2⟩ := writeResultAndFlag_frame (s.shiftCopy x y) x res flag
  obtain ⟨h3, h4⟩ := shiftCopy_frame s x y
  refine ⟨?_, fun z hx hF => (h2 z hx hF).trans (h4 z hx)⟩
  rw [h1, h3]

/-- The state `i` ends in is `s` but for what `i` writes. -/
theorem exec_frame {i : Instr} {s t : State} (h : exec i s = .next t) : FrameOf i s t := by
  cases i with
  | ret =>
    simp only [exec, execRet_eq] at h
    injection h with h
    by_cases hs : s.sp = 0
    · rw [if_pos hs] at h; exact .inl ⟨hs, h.symm⟩
    · rw [if_neg hs] at h; exact .inr ⟨Nat.pos_of_ne_zero hs, h.symm⟩
  | call nnn =>
    simp only [exec, execCall_eq] at h
    injection h with h
    by_cases hs : s.sp = s.cfg.stackCapacity
    · rw [if_pos hs] at h; exact .inl ⟨hs, h.symm⟩
    · rw [if_neg hs] at h; exact .inr ⟨hs, h.symm⟩
  | seImm | sneImm | seReg | sneReg | skp | sknp =>
    injection h with h; subst h; exact skipIf_cases s _
  | addReg | subReg | subnReg => injection h with h; subst h; exact writeResultAndFlag_frame s _ _ _
  | shrReg x y | shlReg x y => injection h with h; subst h; exact shift_frame s x y _ _
  | ldImm x nn | addImm x nn | ldReg x y | orReg x y | andReg x y | xorReg x y | ldVxDt x =>
    injection h with h; subst h; exact ⟨rfl, fun z hz => s.reg_setReg_ne hz _⟩
  | rnd x nn => injection h with h; subst h; exact ⟨rfl, fun z hz => s.countDraw.reg_setReg_ne hz _⟩
  | addI x =>
    injection h with h; subst h
    refine ⟨?_, fun y hy => ?_⟩
    · rw [State.writeIndexFlag_eq]; rfl
    · rw [State.reg_writeIndexFlag, if_neg hy]; rfl
  | drw x y n =>
    obtain ⟨u, e, h1, h2, -⟩ := execDrw_spec x y n s
    obtain rfl : u = t := by rw [exec, e] at h; injection h
    exact ⟨h1, h2⟩
  | ldB x =>
    obtain ⟨u, e, h1, -⟩ := execLdB_spec x s
    obtain rfl : u = t := by rw [exec, e] at h; injection h
    exact h1
  | stRegs x =>
    obtain ⟨u, e, h1, -⟩ := execStRegs_spec x s
    obtain rfl : u = t := by rw [exec, e] at h; injection h
    exact h1
  | ldRegs x =>
    obtain ⟨u, e, h1, -, h2⟩ := execLdRegs_spec x s
    obtain rfl : u = t := by rw [exec, e] at h; injection h
    exact ⟨h1, fun y hy => by rw [h2, if_neg fun h => absurd (lt_of_lt_of_le hy h.1) (lt_irrefl x)]⟩
  | ldVxK x =>
    simp only [exec, execLdVxK_eq] at h
    injection h with h
    subst h
    cases s.releasedKey with
    | some k => exact .inl ⟨rfl, fun z hz => s.clearLatches.reg_setReg_ne hz _⟩
    | none => exact .inr (by simp only [State.setPc, State.latchHeld])
  | _ => injection h with h; exact h.symm

end Sys2Proof.Machine
end

