-- ==== Sys2Proof/Laws/Host.lean ====
section
/-! SUPPORT. What the host gives a frame and reads after it: the turns of a batch by agent, and the recorded
conditions. -/

namespace Sys2Proof.Machine

/-- A batch has as many Executor turns as its list of ticks has entries (spec/60_exceptions.md R218). -/
theorem count_executor_batchTurns (ticks : List Nat) : (batchTurns ticks).count .executor = ticks.length := by
  induction ticks with
  | nil => rfl
  | cons k ks ih => simp [batchTurns, List.count_replicate, ih]

/-- A batch has the ticks listed. -/
theorem count_tick_batchTurns (ticks : List Nat) : (batchTurns ticks).count .tick = ticks.sum := by
  induction ticks with
  | nil => rfl
  | cons k ks ih => simp [batchTurns, ih]

/-- Only the frame's own first turn sets keys: a batch sets none (spec/60_exceptions.md R213). -/
theorem keys_notMem_batchTurns (ticks : List Nat) (held : KeySet) : Turn.keys held ∉ batchTurns ticks := by
  induction ticks with
  | nil => simp [batchTurns]
  | cons k ks ih => simp [batchTurns, ih]

/-- A run is clean exactly when no condition is on record (spec/60_exceptions.md R205). -/
theorem State.conditions_eq_nil (s : State) : s.conditions = [] ↔ s.clean := by
  unfold State.conditions State.clean
  cases s.halted <;> cases s.aor <;> simp

/-- After a fatal condition, its kind is on record. -/
@[simp] theorem State.conditions_raiseFatal (s : State) (kind : FatalKind) (a : Word) :
    (s.raiseFatal kind a).conditions = .fatal kind :: if s.aor then [.addressOutOfRange] else [] := rfl

/-- After AddressOutOfRange, it is on record beside a fatal condition, if any. -/
@[simp] theorem State.conditions_signalAor (s : State) (a : Nat) :
    (s.signalAor a).conditions = s.halted.toList.map .fatal ++ [.addressOutOfRange] := rfl

end Sys2Proof.Machine
end

