-- ==== Sys2Proof/Laws/PerInstr.lean ====
section
/-! SUPPORT. Per instruction: the encoded word carries the selector bits of its row of
spec/opcode_table.json, whatever the operands (spec/30_encoding.md R73, R77, R80). -/

namespace Sys2Proof.Laws.TableRow

/-- The bits of a word that select its instruction (R80). -/
inductive Selector where
  /-- The whole word. -/
  | whole (w : Word)
  /-- Field F alone. -/
  | family (f : Nibble)
  /-- Fields F and N. -/
  | lowNibble (f n : Nibble)
  /-- Fields F and NN. -/
  | lowByte (f : Nibble) (nn : Byte)
deriving DecidableEq, Repr

/-- The word has the selector's bits. -/
def Selector.Holds (w : Word) : Selector → Prop
  | .whole v => w = v
  | .family f => fieldF w = f
  | .lowNibble f n => fieldF w = f ∧ fieldN w = n
  | .lowByte f nn => fieldF w = f ∧ fieldNN w = nn

/-- The selector of each row. -/
def selector : Instr → Selector
  | .cls => .whole 0x00E0
  | .ret => .whole 0x00EE
  | .sys _ => .family 0x0
  | .jp _ => .family 0x1
  | .call _ => .family 0x2
  | .seImm _ _ => .family 0x3
  | .sneImm _ _ => .family 0x4
  | .seReg _ _ _ => .family 0x5
  | .ldImm _ _ => .family 0x6
  | .addImm _ _ => .family 0x7
  | .ldReg _ _ => .lowNibble 0x8 0x0
  | .orReg _ _ => .lowNibble 0x8 0x1
  | .andReg _ _ => .lowNibble 0x8 0x2
  | .xorReg _ _ => .lowNibble 0x8 0x3
  | .addReg _ _ => .lowNibble 0x8 0x4
  | .subReg _ _ => .lowNibble 0x8 0x5
  | .shrReg _ _ => .lowNibble 0x8 0x6
  | .subnReg _ _ => .lowNibble 0x8 0x7
  | .shlReg _ _ => .lowNibble 0x8 0xE
  | .nop8XY8 _ _ => .lowNibble 0x8 0x8
  | .nop8XY9 _ _ => .lowNibble 0x8 0x9
  | .nop8XYA _ _ => .lowNibble 0x8 0xA
  | .nop8XYB _ _ => .lowNibble 0x8 0xB
  | .nop8XYC _ _ => .lowNibble 0x8 0xC
  | .nop8XYD _ _ => .lowNibble 0x8 0xD
  | .nop8XYF _ _ => .lowNibble 0x8 0xF
  | .sneReg _ _ _ => .family 0x9
  | .ldI _ => .family 0xA
  | .jpOff _ => .family 0xB
  | .rnd _ _ => .family 0xC
  | .drw _ _ _ => .family 0xD
  | .skp _ => .lowByte 0xE 0x9E
  | .sknp _ => .lowByte 0xE 0xA1
  | .nopE _ _ => .family 0xE
  | .ldVxDt _ => .lowByte 0xF 0x07
  | .ldVxK _ => .lowByte 0xF 0x0A
  | .ldDtVx _ => .lowByte 0xF 0x15
  | .ldStVx _ => .lowByte 0xF 0x18
  | .addI _ => .lowByte 0xF 0x1E
  | .ldF _ => .lowByte 0xF 0x29
  | .ldB _ => .lowByte 0xF 0x33
  | .stRegs _ => .lowByte 0xF 0x55
  | .ldRegs _ => .lowByte 0xF 0x65
  | .nopF _ _ => .family 0xF
  | .nop5XYN _ _ _ => .family 0x5
  | .nop9XYN _ _ _ => .family 0x9

/-- The word of `i` carries the selector bits of the row of `i`. -/
def Statement (i : Instr) : Prop := (selector i).Holds (encode i)

theorem cls : Statement .cls := rfl

theorem ret : Statement .ret := rfl

theorem sys (nnn : Addr) : Statement (.sys nnn) := fieldF_formatA _ _

theorem jp (nnn : Addr) : Statement (.jp nnn) := fieldF_formatA _ _

theorem call (nnn : Addr) : Statement (.call nnn) := fieldF_formatA _ _

theorem seImm (x : RegIdx) (nn : Byte) : Statement (.seImm x nn) := fieldF_formatI _ _ _

theorem sneImm (x : RegIdx) (nn : Byte) : Statement (.sneImm x nn) := fieldF_formatI _ _ _

theorem seReg (x y : RegIdx) (n : Nibble) : Statement (.seReg x y n) := fieldF_formatR _ _ _ _

theorem ldImm (x : RegIdx) (nn : Byte) : Statement (.ldImm x nn) := fieldF_formatI _ _ _

theorem addImm (x : RegIdx) (nn : Byte) : Statement (.addImm x nn) := fieldF_formatI _ _ _

theorem ldReg (x y : RegIdx) : Statement (.ldReg x y) := ⟨fieldF_formatR _ _ _ _, fieldN_formatR _ _ _ _⟩

theorem orReg (x y : RegIdx) : Statement (.orReg x y) := ⟨fieldF_formatR _ _ _ _, fieldN_formatR _ _ _ _⟩

theorem andReg (x y : RegIdx) : Statement (.andReg x y) := ⟨fieldF_formatR _ _ _ _, fieldN_formatR _ _ _ _⟩

theorem xorReg (x y : RegIdx) : Statement (.xorReg x y) := ⟨fieldF_formatR _ _ _ _, fieldN_formatR _ _ _ _⟩

theorem addReg (x y : RegIdx) : Statement (.addReg x y) := ⟨fieldF_formatR _ _ _ _, fieldN_formatR _ _ _ _⟩

theorem subReg (x y : RegIdx) : Statement (.subReg x y) := ⟨fieldF_formatR _ _ _ _, fieldN_formatR _ _ _ _⟩

theorem shrReg (x y : RegIdx) : Statement (.shrReg x y) := ⟨fieldF_formatR _ _ _ _, fieldN_formatR _ _ _ _⟩

theorem subnReg (x y : RegIdx) : Statement (.subnReg x y) := ⟨fieldF_formatR _ _ _ _, fieldN_formatR _ _ _ _⟩

theorem shlReg (x y : RegIdx) : Statement (.shlReg x y) := ⟨fieldF_formatR _ _ _ _, fieldN_formatR _ _ _ _⟩

theorem nop8XY8 (x y : RegIdx) : Statement (.nop8XY8 x y) := ⟨fieldF_formatR _ _ _ _, fieldN_formatR _ _ _ _⟩

theorem nop8XY9 (x y : RegIdx) : Statement (.nop8XY9 x y) := ⟨fieldF_formatR _ _ _ _, fieldN_formatR _ _ _ _⟩

theorem nop8XYA (x y : RegIdx) : Statement (.nop8XYA x y) := ⟨fieldF_formatR _ _ _ _, fieldN_formatR _ _ _ _⟩

theorem nop8XYB (x y : RegIdx) : Statement (.nop8XYB x y) := ⟨fieldF_formatR _ _ _ _, fieldN_formatR _ _ _ _⟩

theorem nop8XYC (x y : RegIdx) : Statement (.nop8XYC x y) := ⟨fieldF_formatR _ _ _ _, fieldN_formatR _ _ _ _⟩

theorem nop8XYD (x y : RegIdx) : Statement (.nop8XYD x y) := ⟨fieldF_formatR _ _ _ _, fieldN_formatR _ _ _ _⟩

theorem nop8XYF (x y : RegIdx) : Statement (.nop8XYF x y) := ⟨fieldF_formatR _ _ _ _, fieldN_formatR _ _ _ _⟩

theorem sneReg (x y : RegIdx) (n : Nibble) : Statement (.sneReg x y n) := fieldF_formatR _ _ _ _

theorem ldI (nnn : Addr) : Statement (.ldI nnn) := fieldF_formatA _ _

theorem jpOff (nnn : Addr) : Statement (.jpOff nnn) := fieldF_formatA _ _

theorem rnd (x : RegIdx) (nn : Byte) : Statement (.rnd x nn) := fieldF_formatI _ _ _

theorem drw (x y : RegIdx) (n : Nibble) : Statement (.drw x y n) := fieldF_formatR _ _ _ _

theorem skp (x : RegIdx) : Statement (.skp x) := ⟨fieldF_formatI _ _ _, fieldNN_formatI _ _ _⟩

theorem sknp (x : RegIdx) : Statement (.sknp x) := ⟨fieldF_formatI _ _ _, fieldNN_formatI _ _ _⟩

theorem nopE (x : RegIdx) (nn : Byte) : Statement (.nopE x nn) := fieldF_formatI _ _ _

theorem ldVxDt (x : RegIdx) : Statement (.ldVxDt x) := ⟨fieldF_formatI _ _ _, fieldNN_formatI _ _ _⟩

theorem ldVxK (x : RegIdx) : Statement (.ldVxK x) := ⟨fieldF_formatI _ _ _, fieldNN_formatI _ _ _⟩

theorem ldDtVx (x : RegIdx) : Statement (.ldDtVx x) := ⟨fieldF_formatI _ _ _, fieldNN_formatI _ _ _⟩

theorem ldStVx (x : RegIdx) : Statement (.ldStVx x) := ⟨fieldF_formatI _ _ _, fieldNN_formatI _ _ _⟩

theorem addI (x : RegIdx) : Statement (.addI x) := ⟨fieldF_formatI _ _ _, fieldNN_formatI _ _ _⟩

theorem ldF (x : RegIdx) : Statement (.ldF x) := ⟨fieldF_formatI _ _ _, fieldNN_formatI _ _ _⟩

theorem ldB (x : RegIdx) : Statement (.ldB x) := ⟨fieldF_formatI _ _ _, fieldNN_formatI _ _ _⟩

theorem stRegs (x : RegIdx) : Statement (.stRegs x) := ⟨fieldF_formatI _ _ _, fieldNN_formatI _ _ _⟩

theorem ldRegs (x : RegIdx) : Statement (.ldRegs x) := ⟨fieldF_formatI _ _ _, fieldNN_formatI _ _ _⟩

theorem nopF (x : RegIdx) (nn : Byte) : Statement (.nopF x nn) := fieldF_formatI _ _ _

theorem nop5XYN (x y : RegIdx) (n : Nibble) : Statement (.nop5XYN x y n) := fieldF_formatR _ _ _ _

theorem nop9XYN (x y : RegIdx) (n : Nibble) : Statement (.nop9XYN x y n) := fieldF_formatR _ _ _ _

end Sys2Proof.Laws.TableRow
end

