-- ==== Sys2Proof/Tests/Slice0.lean ====
section
/-! SUPPORT. Tests: ill-formed terms refused, a word of every constructor decoded, one step each on the
vectors of spec/95_test_vectors.md (named in the comments), and for every statement with hypotheses a
state and operands that meet them together. -/

namespace Sys2Proof.Tests

open Sys2Proof Sys2Proof.Machine

/-! ## Ill-formed terms -/

theorem test_wf_refuses_sys_of_cls : (Instr.sys 0x0E0).wf false = false := by decide
theorem test_wf_refuses_sys_of_ret : (Instr.sys 0x0EE).wf true = false := by decide
theorem test_wf_refuses_strict_seReg : (Instr.seReg 1 2 1).wf true = false := by decide
theorem test_wf_refuses_strict_sneReg : (Instr.sneReg 1 2 0xF).wf true = false := by decide
theorem test_wf_refuses_loose_nop5 : (Instr.nop5XYN 1 2 1).wf false = false := by decide
theorem test_wf_refuses_nop5_of_se : (Instr.nop5XYN 1 2 0).wf true = false := by decide
theorem test_wf_refuses_loose_nop9 : (Instr.nop9XYN 1 2 1).wf false = false := by decide
theorem test_wf_refuses_nop9_of_sne : (Instr.nop9XYN 1 2 0).wf true = false := by decide
theorem test_wf_refuses_nopE_of_skp : (Instr.nopE 1 0x9E).wf false = false := by decide
theorem test_wf_refuses_nopF_of_delay : (Instr.nopF 1 0x07).wf false = false := by decide
theorem test_wf_accepts : (Instr.sys 0x123).wf false = true ∧ (Instr.seReg 1 2 1).wf false = true ∧
    (Instr.nop5XYN 1 2 1).wf true = true ∧ (Instr.nopE 1 0x9F).wf true = true := by decide

/-! ## Decoding: each word is its pattern of spec/30_encoding.md R77, written out -/

theorem test_decode_family0 : decodeWord false 0x00E0 = .cls ∧ decodeWord false 0x00EE = .ret ∧
    decodeWord false 0x0123 = .sys 0x123 ∧ decodeWord false 0x01E0 = .sys 0x1E0 ∧
    decodeWord false 0x0FEE = .sys 0xFEE := by decide
theorem test_decode_addresses : decodeWord false 0x1234 = .jp 0x234 ∧ decodeWord false 0x2300 = .call 0x300 ∧
    decodeWord false 0xA21E = .ldI 0x21E ∧ decodeWord false 0xBF01 = .jpOff 0xF01 := by decide
theorem test_decode_immediates : decodeWord false 0x3310 = .seImm 3 0x10 ∧
    decodeWord false 0x4E21 = .sneImm 0xE 0x21 ∧ decodeWord false 0x6A7B = .ldImm 0xA 0x7B ∧
    decodeWord false 0x7F01 = .addImm 0xF 0x01 ∧ decodeWord false 0xC30F = .rnd 3 0x0F := by decide
theorem test_decode_family8 : decodeWord false 0x8120 = .ldReg 1 2 ∧ decodeWord false 0x8121 = .orReg 1 2 ∧
    decodeWord false 0x8122 = .andReg 1 2 ∧ decodeWord false 0x8123 = .xorReg 1 2 ∧
    decodeWord false 0x8124 = .addReg 1 2 ∧ decodeWord false 0x8125 = .subReg 1 2 ∧
    decodeWord false 0x8126 = .shrReg 1 2 ∧ decodeWord false 0x8127 = .subnReg 1 2 ∧
    decodeWord false 0x812E = .shlReg 1 2 := by decide
theorem test_decode_family8_nops : decodeWord false 0x8128 = .nop8XY8 1 2 ∧
    decodeWord false 0x8129 = .nop8XY9 1 2 ∧ decodeWord false 0x812A = .nop8XYA 1 2 ∧
    decodeWord false 0x812B = .nop8XYB 1 2 ∧ decodeWord false 0x812C = .nop8XYC 1 2 ∧
    decodeWord false 0x812D = .nop8XYD 1 2 ∧ decodeWord false 0x812F = .nop8XYF 1 2 := by decide
theorem test_decode_families59 : decodeWord false 0x5120 = .seReg 1 2 0 ∧
    decodeWord false 0x9120 = .sneReg 1 2 0 ∧ decodeWord false 0x5121 = .seReg 1 2 1 ∧
    decodeWord true 0x5121 = .nop5XYN 1 2 1 ∧ decodeWord true 0x912F = .nop9XYN 1 2 0xF ∧
    decodeWord true 0x9120 = .sneReg 1 2 0 := by decide
theorem test_decode_draw_and_keys : decodeWord false 0xD015 = .drw 0 1 5 ∧ decodeWord false 0xE19E = .skp 1 ∧
    decodeWord false 0xE1A1 = .sknp 1 ∧ decodeWord false 0xE09F = .nopE 0 0x9F := by decide
theorem test_decode_familyF : decodeWord false 0xF307 = .ldVxDt 3 ∧ decodeWord false 0xF50A = .ldVxK 5 ∧
    decodeWord false 0xF315 = .ldDtVx 3 ∧ decodeWord false 0xF318 = .ldStVx 3 ∧
    decodeWord false 0xF11E = .addI 1 ∧ decodeWord false 0xF029 = .ldF 0 ∧
    decodeWord false 0xF533 = .ldB 5 ∧ decodeWord false 0xF155 = .stRegs 1 ∧
    decodeWord false 0xFF65 = .ldRegs 0xF ∧ decodeWord false 0xF030 = .nopF 0 0x30 := by decide
theorem test_decode_bytes_rejects_by_name : decodeBytes false [0x12] = .error (.truncated 1) := by decide
theorem test_decode_bytes_big_endian :
    decodeBytes false [0x12, 0x34, 0x56] = .ok (.jp 0x234, [0x56]) := by decide
theorem test_encode_words : encode (.shlReg 1 2) = 0x812E ∧ encode (.drw 0 1 5) = 0xD015 ∧
    encode (.ldRegs 0xF) = 0xFF65 ∧ encode (.jpOff 0xF01) = 0xBF01 := by decide
theorem test_table_word : decodeTableWord 16 0xD015 = some (.drw 0 1 5) := by decide

/-! ## One step -/

/-- What `f` shows of the state after one step. -/
def stepped {α : Type} (s : State) (f : State → α) : Option α :=
  match step s with
  | .next t => some (f t)
  | .fault _ => none
  | .refused _ => none

/-- What `f` shows of the state after one step that runs the word `w`. -/
def after {α : Type} (s : State) (w : Nat) (f : State → α) : Option α := stepped (s.withFetchWord 16 w) f

/-- The state after reset with one parameter or field changed is written from this. -/
abbrev s0 : State := State.reset

/-- Two registers of the state after reset set. -/
def regs (x : RegIdx) (v : Byte) (y : RegIdx) (u : Byte) : State := (s0.setReg x v).setReg y u

/-- FE2: an odd pc fetches its two bytes. -/
theorem test_odd_pc : after (s0.setPc 0x201) 0x6007 (fun t => (t.reg 0, t.pc)) = some (0x07, 0x203) := by
  decide
/-- FE3. -/
theorem test_last_fetch : after (s0.setPc 0xFFE) 0x0000 (fun t => (t.pc, t.halted)) = some (0x1000, none) := by
  decide
/-- FE4. -/
theorem test_fetch_fatal : step (s0.setPc 0x1000) =
    .next { s0 with pc := 0x1000, faultPc := 0x1000, halted := some .pcOutOfBounds } := rfl
/-- FE6. -/
theorem test_halted_stuck : step { s0 with halted := some .stackUnderflow } =
    .fault (.executorHalted .stackUnderflow) := rfl
/-- The table of spec/60_exceptions.md R205. -/
theorem test_condition_codes : [Condition.fatal .pcOutOfBounds, .fatal .stackUnderflow, .fatal .stackOverflow,
    .addressOutOfRange].map Condition.code = [1, 2, 3, 4] := by decide
/-- W10. -/
theorem test_font_glyph0 : (List.range 5).map (fun k => s0.byteAt (0x050 + k)) = [0xF0, 0x90, 0x90, 0x90, 0xF0] := by
  decide

/-- DR1, W1. -/
theorem test_cls : after ((((s0.setPixel 0 0 true).setPixel 63 31 true)).setReg vF 7) 0x00E0
    (fun t => (t.fb, t.reg vF, t.pc)) = some (blankScreen, 7, 0x202) := by decide
/-- DR12: the right edge and the collision. -/
theorem test_drw_edge : after (((((s0.setReg 0 0x3C).setI 0x300).storeByte 0x300 0xFF).setPixel 63 0 true)) 0xD011
    (fun t => (t.pixel 60 0, t.pixel 62 0, t.pixel 63 0, t.pixel 0 0, t.reg vF)) =
      some (true, true, false, false, 1) := by decide
/-- DR6: a row beyond memory. -/
theorem test_drw_beyond : after (((s0.setI 0xFFE).storeByte 0xFFE 0x80).storeByte 0xFFF 0x40) 0xD013
    (fun t => (t.pixel 0 0, t.pixel 1 1, t.aor, t.aorLog, t.reg vF)) =
      some (true, true, true, [0x1000], 0) := by decide
/-- CF1. -/
theorem test_ret : after { s0 with sp := 1, stack := s0.stack.set 0 0x204, pc := 0x300 } 0x00EE
    (fun t => (t.pc, t.sp)) = some (0x204, 0) := by decide
/-- CF2. -/
theorem test_ret_empty : after s0 0x00EE (fun t => (t.pc, t.halted, t.faultPc)) =
    some (0x200, some .stackUnderflow, 0x200) := by decide
/-- CF22. -/
theorem test_sys : after s0 0x0123 (fun t => (t.pc, t.V)) = some (0x202, s0.V) := by decide
/-- CF3. -/
theorem test_jp : after s0 0x1234 (fun t => t.pc) = some 0x234 := by decide
/-- CF6. -/
theorem test_call : after s0 0x2300 (fun t => (t.slot 0, t.sp, t.pc)) = some (0x202, 1, 0x300) := by decide
/-- CF7. -/
theorem test_call_full : after { s0 with sp := 16, pc := 0x400 } 0x2300
    (fun t => (t.pc, t.sp, t.halted, t.faultPc)) = some (0x400, 16, some .stackOverflow, 0x400) := by decide
/-- CF9. -/
theorem test_seImm : after (s0.setReg 3 0x10) 0x3310 (fun t => t.pc) = some 0x204 := by decide
/-- CF10. -/
theorem test_seImm_not : after (s0.setReg 3 0x11) 0x3310 (fun t => t.pc) = some 0x202 := by decide
/-- CF11. -/
theorem test_sneImm : after (s0.setReg 3 0x10) 0x4310 (fun t => t.pc) = some 0x202 := by decide
/-- CF12. -/
theorem test_sneImm_skip : after (s0.setReg 3 0x11) 0x4310 (fun t => t.pc) = some 0x204 := by decide
/-- CF13, and FE9: the low nibble is free. -/
theorem test_seReg : after (regs 1 7 2 7) 0x5120 (fun t => t.pc) = some 0x204 ∧
    after (regs 1 7 2 7) 0x5121 (fun t => t.pc) = some 0x204 := by decide
/-- FE10: the strict decoder. -/
theorem test_nop5 : after { regs 1 7 2 7 with cfg := { Config.default with strict59 := true } } 0x5121
    (fun t => t.pc) = some 0x202 := by decide
/-- CF15, CF16. -/
theorem test_sneReg : after (regs 1 7 2 8) 0x9120 (fun t => t.pc) = some 0x204 ∧
    after s0 0x9110 (fun t => t.pc) = some 0x202 := by decide
/-- R78: 9XYN with N ≠ 0 under the strict decoder. -/
theorem test_nop9 : after { regs 1 7 2 8 with cfg := { Config.default with strict59 := true } } 0x9121
    (fun t => t.pc) = some 0x202 := by decide
/-- CF18, CF20. -/
theorem test_jpOff_legacy :
    after { regs 0 4 2 8 with cfg := { Config.default with jumpOffsetUsesVx := some false } } 0xB210
      (fun t => t.pc) = some 0x214 ∧
    after { regs 0 0xFF 2 8 with cfg := { Config.default with jumpOffsetUsesVx := some false } } 0xBFFF
      (fun t => t.pc) = some 0x10FE := by decide
/-- CF19, CF21. -/
theorem test_jpOff_quirk :
    after { regs 0 4 2 8 with cfg := { Config.default with jumpOffsetUsesVx := some true } } 0xB210
      (fun t => t.pc) = some 0x218 ∧
    after { regs 0 4 0xF 2 with cfg := { Config.default with jumpOffsetUsesVx := some true } } 0xBF00
      (fun t => t.pc) = some 0xF02 := by decide

/-- AL1. -/
theorem test_ldImm : after s0 0x6A7B (fun t => t.reg 0xA) = some 0x7B := by decide
/-- AL2, AL3. -/
theorem test_addImm : after (regs 0 0xFF vF 0xFF) 0x7001 (fun t => (t.reg 0, t.reg vF)) = some (0, 0xFF) ∧
    after (regs 0 0 vF 0xFF) 0x7F01 (fun t => t.reg vF) = some 0 := by decide
/-- AL5. -/
theorem test_ldReg : after (regs 1 0 2 0x3C) 0x8120 (fun t => (t.reg 1, t.reg 2)) = some (0x3C, 0x3C) := by decide
/-- AL6. -/
theorem test_orReg : after ((regs 1 0x0F 2 0xF0).setReg vF 5) 0x8121 (fun t => (t.reg 1, t.reg vF)) =
    some (0xFF, 5) := by decide
/-- AL7. -/
theorem test_andReg : after (regs 1 0x3C 2 0x0F) 0x8122 (fun t => t.reg 1) = some 0x0C := by decide
/-- AL8. -/
theorem test_xorReg : after (regs 1 0x3C 2 0x0F) 0x8123 (fun t => t.reg 1) = some 0x33 := by decide
/-- AL12, AL13. -/
theorem test_addReg : after (regs 1 0xFF 2 0xFF) 0x8124 (fun t => (t.reg 1, t.reg vF)) = some (0xFE, 1) ∧
    after (regs 1 0xFF 2 0) 0x8124 (fun t => (t.reg 1, t.reg vF)) = some (0xFF, 0) := by decide
/-- AL15, AL16: X = F, both orders of the writes. -/
theorem test_addReg_vF : after (regs 1 1 vF 0xFF) 0x8F14 (fun t => t.reg vF) = some 1 ∧
    after { regs 1 1 vF 0xFF with cfg := { Config.default with flagWriteLast := false } } 0x8F14
      (fun t => t.reg vF) = some 0 := by decide
/-- AL17, AL18. -/
theorem test_subReg : after (regs 1 5 2 3) 0x8125 (fun t => (t.reg 1, t.reg vF)) = some (2, 1) ∧
    after (regs 1 5 2 5) 0x8125 (fun t => (t.reg 1, t.reg vF)) = some (0, 0) := by decide
/-- AL19, AL22. -/
theorem test_subReg_wrap : after (regs 1 0 2 1) 0x8125 (fun t => (t.reg 1, t.reg vF)) = some (0xFF, 0) ∧
    after { regs 1 3 vF 5 with cfg := { Config.default with flagWriteLast := false } } 0x8F15
      (fun t => t.reg vF) = some 2 := by decide
/-- AL26, AL28. -/
theorem test_shrReg : after (regs 1 0 2 5) 0x8126 (fun t => (t.reg 1, t.reg vF)) = some (2, 1) ∧
    after (regs 1 0 2 4) 0x8126 (fun t => (t.reg 1, t.reg vF)) = some (2, 0) := by decide
/-- AL27. -/
theorem test_shrReg_own : after { regs 1 5 2 0xFF with cfg := { Config.default with shiftCopiesVy := false } } 0x8126
    (fun t => (t.reg 1, t.reg vF)) = some (2, 1) := by decide
/-- AL23, AL24. -/
theorem test_subnReg : after (regs 1 3 2 5) 0x8127 (fun t => (t.reg 1, t.reg vF)) = some (2, 1) ∧
    after (regs 1 5 2 3) 0x8127 (fun t => (t.reg 1, t.reg vF)) = some (0xFE, 0) := by decide
/-- AL30, AL32. -/
theorem test_shlReg : after (regs 1 0 2 0x81) 0x812E (fun t => (t.reg 1, t.reg vF)) = some (2, 1) ∧
    after (regs 1 0 2 0x7F) 0x812E (fun t => (t.reg 1, t.reg vF)) = some (0xFE, 0) := by decide
/-- AL33. -/
theorem test_shlReg_own : after { regs 1 0xFF 2 0 with cfg := { Config.default with shiftCopiesVy := false } } 0x812E
    (fun t => (t.reg 1, t.reg vF)) = some (0xFE, 1) := by decide
/-- AL36. -/
theorem test_nop8 : [0x8128, 0x8129, 0x812A, 0x812B, 0x812C, 0x812D, 0x812F].all (fun w =>
    after (s0.setReg 1 0x55) w (fun t => (t.V, t.pc)) == some ((s0.setReg 1 0x55).V, 0x202)) = true := by decide
/-- AL37, for whatever byte is drawn. -/
theorem test_rnd (x : RegIdx) (s : State) : exec (.rnd x 0x0F) s =
    .next ({ s with draws := s.draws + 1 }.setReg x (Config.draw8 s.draws &&& 0x0F)) := rfl

/-- IM1. -/
theorem test_ldI : after s0 0xA123 (fun t => t.I) = some 0x123 := by decide
/-- IM3, IM4. -/
theorem test_addI : after ((s0.setI 0xFFF).setReg 1 1) 0xF11E (fun t => (t.I, t.reg vF)) = some (0x1000, 1) ∧
    after ((regs 1 1 vF 7).setI 0x1005) 0xF11E (fun t => (t.I, t.reg vF)) = some (6, 7) := by decide
/-- IM5, IM8. -/
theorem test_addI_flag :
    after { (regs 1 1 vF 7).setI 0x1005 with cfg := { Config.default with fx1eClearsVf := true } } 0xF11E
      (fun t => (t.I, t.reg vF)) = some (6, 0) ∧
    after ((s0.setReg vF 1).setI 0xFFF) 0xFF1E (fun t => (t.I, t.reg vF)) = some (0x1000, 1) := by decide
/-- IM10, IM12. -/
theorem test_ldF : after (s0.setReg 0 4) 0xF029 (fun t => t.I) = some 0x064 ∧
    after (s0.setReg 0 0xFF) 0xF029 (fun t => t.I) = some 0x54B := by decide
/-- IM15. -/
theorem test_ldB : after ((s0.setReg 5 0xFF).setI 0x300) 0xF533
    (fun t => (t.byteAt 0x300, t.byteAt 0x301, t.byteAt 0x302, t.I)) = some (2, 5, 5, 0x300) := by decide
/-- IM17. -/
theorem test_ldB_beyond : after ((s0.setReg 5 0x7B).setI 0xFFE) 0xF533
    (fun t => (t.byteAt 0xFFE, t.byteAt 0xFFF, t.aor, t.aorLog, t.pc)) =
      some (1, 2, true, [0x1000], 0x202) := by decide
/-- IM19. -/
theorem test_stRegs : after ((regs 0 1 1 2).setI 0x300) 0xF155
    (fun t => (t.byteAt 0x300, t.byteAt 0x301, t.byteAt 0x302, t.I)) = some (1, 2, 0, 0x300) := by decide
/-- IM21. -/
theorem test_stRegs_beyond : after ((regs 0 0xAA 1 0xBB).setI 0xFFF) 0xF155
    (fun t => (t.byteAt 0xFFF, t.aorLog)) = some (0xAA, [0x1000]) := by decide
/-- IM22. -/
theorem test_ldRegs : after (((s0.storeByte 0x300 7).storeByte 0x301 9).setI 0x300) 0xF165
    (fun t => (t.reg 0, t.reg 1, t.reg 2, t.I)) = some (7, 9, 0, 0x300) := by decide
/-- IM24. -/
theorem test_ldRegs_beyond : after (((s0.storeByte 0xFFF 0x11).setReg 1 0x22).setI 0xFFF) 0xF165
    (fun t => (t.reg 0, t.reg 1, t.aorLog)) = some (0x11, 0x22, [0x1000]) := by decide

/-- One key. -/
def oneKey (k : Key) : KeySet := noKeys.set k.val true

/-- TK1. -/
theorem test_ldVxDt : after { s0 with DT := 0x3C } 0xF307 (fun t => t.reg 3) = some 0x3C := by decide
/-- TK2. -/
theorem test_ldDtVx : after (s0.setReg 3 0x3C) 0xF315 (fun t => (t.DT, t.ST)) = some (0x3C, 0) := by decide
/-- TK3, with the gate of spec/60_exceptions.md R215. -/
theorem test_ldStVx : after (s0.setReg 3 0x0A) 0xF318 (fun t => (t.ST, t.DT, t.audioGate)) =
    some (0x0A, 0, true) := by decide
/-- TK6, TK7. -/
theorem test_tick : stepped { s0 with DT := 1, schedule := [.tick] } (fun t => (t.DT, t.ST)) = some (0, 0) ∧
    stepped { s0 with schedule := [.tick] } (fun t => (t.DT, t.ST)) = some (0, 0) := by decide
/-- TK9, TK13. -/
theorem test_skp : after { s0.setReg 1 5 with held := oneKey 5 } 0xE19E (fun t => t.pc) = some 0x204 ∧
    after { s0.setReg 1 0x15 with held := oneKey 5 } 0xE19E (fun t => t.pc) = some 0x202 := by decide
/-- TK12, TK14. -/
theorem test_sknp : after { s0.setReg 1 5 with held := oneKey 5 } 0xE1A1 (fun t => t.pc) = some 0x202 ∧
    after (s0.setReg 1 0x15) 0xE1A1 (fun t => t.pc) = some 0x204 := by decide
/-- TK17. -/
theorem test_ldVxK_lowest : after { s0 with latch := (oneKey 2).set 5 true } 0xF50A
    (fun t => (t.reg 5, t.latch, t.pc)) = some (2, noKeys, 0x202) := by decide
/-- TK18. -/
theorem test_ldVxK_waits :
    after { s0 with latch := oneKey 7, held := (oneKey 7).set 9 true } 0xF50A
      (fun t => (t.reg 5, t.latch, t.pc)) = some (0, (oneKey 7).set 9 true, 0x200) := by decide
/-- TK21. -/
theorem test_nopE_nopF : after s0 0xE0FF (fun t => (t.V, t.pc)) = some (s0.V, 0x202) ∧
    after s0 0xF0FF (fun t => (t.V, t.pc)) = some (s0.V, 0x202) := by decide

/-! ## Witnesses: states and operands that meet the hypotheses of the statements -/

theorem witness_DecodeInvertsEncode : (Instr.drw 0xF 0xF 0xF).wf false = true ∧ (Instr.sys 0x0EF).wf false = true ∧
    (Instr.nop5XYN 0 0 1).wf true = true ∧ (Instr.nopF 0 0xFF).wf true = true := by decide

/-- A state at the last fetch address, the Executor's turn at the head of the schedule. -/
def atEdge : State := { s0 with pc := 0xFFE, schedule := [.executor, .tick] }

theorem atEdge_turn : atEdge.executorTurn [.tick] := ⟨rfl, .inr rfl⟩

theorem witness_UnrecognizedWordsOnlyAdvancePc : atEdge.executorTurn [.tick] ∧ atEdge.pc.toNat ≤ lastFetch ∧
    unrecognized atEdge.cfg.strict59 (atEdge.wordAt atEdge.pc.toNat).toNat = true :=
  ⟨atEdge_turn, by decide, by decide⟩

theorem witness_StepRunsTheDecodedInstruction : s0.executorTurn [] ∧ s0.pc.toNat ≤ 0x0FFE ∧
    (0 : Word).toNat = 256 * (s0.byteAt s0.pc.toNat).toNat + (s0.byteAt (s0.pc.toNat + 1)).toNat :=
  ⟨⟨rfl, .inl ⟨rfl, rfl⟩⟩, by decide, by decide⟩

theorem witness_StepRunsTheDecodedInstruction_edge : atEdge.executorTurn [.tick] ∧ atEdge.pc.toNat ≤ 0x0FFE ∧
    (0 : Word).toNat = 256 * (atEdge.byteAt atEdge.pc.toNat).toNat + (atEdge.byteAt (atEdge.pc.toNat + 1)).toNat :=
  ⟨atEdge_turn, by decide, by decide⟩

theorem witness_FetchOutOfBoundsIsFatal : (s0.setPc 0xFFF).executorTurn [] ∧ 0x0FFE < (s0.setPc 0xFFF).pc.toNat :=
  ⟨⟨rfl, .inl ⟨rfl, rfl⟩⟩, by decide⟩

theorem witness_PlacedWordIsFetchedAndRun : 0xFFFF < 65536 ∧ atEdge.mem.wf = true ∧ atEdge.halted = none ∧
    atEdge.pc.toNat ≤ 0x0FFE ∧ atEdge.schedule = .executor :: [.tick] := by decide

theorem witness_PlacedWordIsFetchedAndRun_tick : let s : State := { s0 with schedule := [.tick] }
    s.mem.wf = true ∧ s.halted = none ∧ s.pc.toNat ≤ 0x0FFE ∧
      s.schedule = [.tick] ∧ ∀ r, [Turn.tick] ≠ .executor :: r :=
  ⟨rfl, rfl, by decide, rfl, fun _ h => by cases h⟩

/-- A halted state with turns scheduled. -/
def haltedState (turns : List Turn) : State :=
  { s0 with halted := some .stackUnderflow, faultPc := 0x200, schedule := turns }

theorem witness_HaltedExecutorTakesNoStep :
    (haltedState []).halted = some .stackUnderflow ∧ (haltedState []).schedule = [] ∧
    (haltedState [.executor]).halted = some .stackUnderflow ∧
    (haltedState [.executor]).schedule = .executor :: [] := by decide

theorem witness_HaltIsStickyAndFreezesTheMachine :
    (haltedState [.tick]).halted.isSome = true ∧ ∃ t, step (haltedState [.tick]) = .next t :=
  ⟨rfl, _, rfl⟩

theorem witness_TickDecrementsEachTimerTowardZero :
    ({ s0 with DT := 1, schedule := [.tick] } : State).schedule = .tick :: [] := rfl

theorem witness_NopsCompleteAndChangeNothing : isNop (.nop9XYN 1 2 3) = true ∧ isNop (.sys 0) = true := by decide

theorem witness_AddAndSubtractWriteResultAndFlag : let s := regs 1 0xFF 2 0
    ¬ 255 < (s.reg 1).toNat + (s.reg 2).toNat ∧ (s.reg 2).toNat < (s.reg 1).toNat ∧
    255 < ((s.setReg 2 1).reg 1).toNat + ((s.setReg 2 1).reg 2).toNat ∧
    ¬ (s.reg 1).toNat < (s.reg 1).toNat := by decide

theorem witness_JumpWithOffsetAddsTheSelectedRegister : (0xF : RegIdx).val = (0xFFF : Addr).toNat / 256 ∧ s0.cfg.jumpOffsetUsesVx = none := by
  decide

theorem witness_CallPushesTheReturnAddress : let s : State := { s0 with sp := 15 }
    s.stack.length = s.cfg.stackCapacity ∧ s.sp < s.cfg.stackCapacity := by decide

theorem witness_ReturnPopsTheProgramCounter : 0 < ({ s0 with sp := 1 } : State).sp := by decide

theorem witness_StackErrorsAreFatalAndPrecise : s0.sp = 0 ∧
    ({ s0 with sp := 16 } : State).sp = ({ s0 with sp := 16 } : State).cfg.stackCapacity := by decide

theorem witness_OnlyCallAndReturnRaiseAFatalCondition :
    s0.halted = none ∧ ∃ t, exec .ret s0 = .next t ∧ t.halted ≠ none := ⟨rfl, _, rfl, by decide⟩

theorem witness_OnlyCallAndReturnRaiseAFatalCondition_call : let s : State := { s0 with sp := 16 }
    s.halted = none ∧ ∃ t, exec (.call 0x300) s = .next t ∧ t.halted ≠ none := ⟨rfl, _, rfl, by decide⟩

theorem witness_AddToIndexSetsFlagOnBitTwelve : 4096 ≤ (((s0.setI 0xFFF).setReg 1 1).indexSum 1).toNat ∧
    (((s0.setI 0xFFF).setReg 1 0).indexSum 1).toNat < 4096 := by decide

/-- The last two bytes of memory, one offset within and one beyond. -/
def atTop : State := s0.setI 0xFFE

/-- For FX33, FX55 (with x = 2) and FX65 (with x = 2), each clause at the top of memory. -/
theorem witness_DecimalStore_StoreRegisters_LoadRegisters : atTop.mem.wf = true ∧ atTop.ea 0 ≤ 0x0FFF ∧ atTop.ea 1 ≤ 0x0FFF ∧
    0x0FFF < atTop.ea 2 := by decide

theorem witness_AccessesBeyondMemoryAreRecorded : (∀ x, Instr.cls ≠ .ldB x ∧ Instr.cls ≠ .stRegs x ∧ Instr.cls ≠ .ldRegs x) ∧
    (∀ x y n, Instr.cls ≠ .drw x y n) ∧ ∃ t, exec .cls s0 = .next t :=
  ⟨fun _ => ⟨nofun, nofun, nofun⟩, fun _ _ _ => nofun, _, rfl⟩

theorem witness_StoredBytesAreFetched : ∃ (s t u : State), s.mem.wf = true ∧ (1 : RegIdx).val = (0 : RegIdx).val + 1 ∧
    (1 : RegIdx) ≤ 1 ∧ s.ea (1 : RegIdx).val ≤ 0x0FFF ∧ exec (.stRegs 1) s = .next t ∧ u.mem = t.mem ∧
    u.executorTurn [] ∧ u.pc.toNat = s.ea (0 : RegIdx).val ∧
    (0x6007 : Word).toNat = 256 * (s.reg 0).toNat + (s.reg 1).toNat := by
  let s := (regs 0 0x60 1 0x07).setI 0xFFE
  exact ⟨s, _, { s0 with mem := (s.mem.write 0xFFE 0x60).write 0xFFF 0x07, pc := 0xFFE }, rfl, rfl, by decide,
    by decide, rfl, by decide, ⟨rfl, .inl ⟨rfl, rfl⟩⟩, by decide, by decide⟩

theorem witness_EqualMemoriesAreEqualData : let m : Memory := [(0xFFF, 1)]
    m.wf = true ∧ ∀ a, m.read a = m.read a := ⟨by decide, fun _ => rfl⟩

theorem witness_DrawFlipsThePixelsTheSpriteSets : let s := (s0.storeByte 0x300 0x80).setI 0x300
    s.spriteSets 0 1 1 0 0 = true ∧ s.pixel 0 0 = false ∧ (s.setPixel 0 0 true).pixel 0 0 = true ∧
    (s.setPixel 0 0 true).spriteSets 0 1 1 0 0 = true := by decide

theorem witness_DrawingTwiceRestoresThePixels : ∃ t u, exec (.drw 0 1 5) (s0.setI 0x50) = .next t ∧
    t.spriteCol 0 = (s0.setI 0x50).spriteCol 0 ∧ t.spriteRow 1 = (s0.setI 0x50).spriteRow 1 ∧
    exec (.drw 0 1 5) t = .next u := ⟨_, _, rfl, by decide, by decide, rfl⟩

theorem witness_OnlyDrawReadsAndTwoInstructionsWriteTheDisplay :
    (∀ x y n, Instr.jp 0x234 ≠ .drw x y n) ∧ Instr.jp 0x234 ≠ .cls ∧ (∀ x y n, Instr.cls ≠ .drw x y n) ∧
    (∃ t, exec (.jp 0x234) s0 = .next t) ∧ ∃ t, exec .cls s0 = .next t :=
  ⟨fun _ _ _ => nofun, nofun, fun _ _ _ => nofun, ⟨_, rfl⟩, _, rfl⟩

theorem witness_KeyWaitReportsTheLowestReleasedKey :
    let s : State := { s0 with latch := (oneKey 2).set 5 true, held := oneKey 2 }
    s.latch[(5 : Key).val] = true ∧ s.held[(5 : Key).val] = false ∧
      ∀ j : Key, j < 5 → s.latch[j.val] = true → s.held[j.val] = true := by decide

theorem witness_KeyWaitRepeatsUntilARelease : let s : State := { s0 with latch := oneKey 7, held := oneKey 7 }
    ∀ j : Key, s.latch[j.val] = true → s.held[j.val] = true := by decide

/-- A key wait in progress. -/
def waitingState : State := { s0.placeWord 0xF50A with latch := oneKey 7, held := oneKey 7 }

theorem waitingState_waiting : waitingState.waiting := ⟨rfl, by decide, 5, by decide⟩

theorem witness_KeyWaitLastsWhileKeysAreSteady : waitingState.waiting ∧
    (∀ k : Key, waitingState.latch[k.val] = true → waitingState.held[k.val] = true) ∧
    ∀ h, Turn.keys h ∉ [Turn.executor, .tick] := ⟨waitingState_waiting, by decide, by simp⟩

theorem witness_OnlyControlFlowMovesPc : ∃ t, exec (.jp 0x234) s0 = .next t ∧ t.pc ≠ s0.pc :=
  ⟨_, rfl, by decide⟩

theorem witness_FlagIsWrittenOnlyByTheListedInstructions :
    (∃ t, exec (.ldImm vF 1) s0 = .next t ∧ t.reg vF ≠ s0.reg vF) ∧
    ∃ t, exec (.addI 1) ((s0.setI 0xFFF).setReg 1 1) = .next t ∧ t.reg vF ≠ ((s0.setI 0xFFF).setReg 1 1).reg vF :=
  ⟨⟨_, rfl, by decide⟩, _, rfl, by decide⟩

theorem witness_EachResourceHasItsWriters :
    (∃ t, exec (.ldI 0x123) s0 = .next t ∧ t.I ≠ s0.I) ∧ (∃ t, exec (.call 0x300) s0 = .next t ∧ t.sp ≠ s0.sp) ∧
    (∃ t, exec (.stRegs 0) ((s0.setI 0x300).setReg 0 1) = .next t ∧ t.mem ≠ s0.mem) ∧
    (∃ t, exec (.ldDtVx 0) (s0.setReg 0 1) = .next t ∧ t.DT ≠ s0.DT) ∧
    (∃ t, exec (.ldStVx 0) (s0.setReg 0 1) = .next t ∧ t.ST ≠ s0.ST) ∧
    (∃ t, exec (.ldVxK 0) { s0 with held := oneKey 3 } = .next t ∧ t.latch ≠ s0.latch) :=
  ⟨⟨_, rfl, by decide⟩, ⟨_, rfl, by decide⟩, ⟨_, rfl, by decide⟩, ⟨_, rfl, by decide⟩, ⟨_, rfl, by decide⟩, _, rfl,
    by decide⟩

theorem witness_ConfigurationIsFixedForLife : Moves s0 s0.tick := .snoc (.refl s0) (.tick s0)

theorem s0_inv : s0.Inv where
  mem_wf := rfl
  stack_length := List.length_replicate
  sp_le := Nat.zero_le _
  pc_le := by decide
  slot_le := fun a h => by rw [List.eq_of_mem_replicate h]; decide
  index_le := by decide
  aor_iff := by simp [State.reset]
  aor_range := by simp [State.reset]
  halted_pc := fun h => by cases h

theorem witness_EveryStepKeepsTheInvariant : s0.Inv ∧ ∃ t, step s0 = .next t := ⟨s0_inv, _, rfl⟩

theorem witness_LatchesAreClearOutsideAKeyWait : waitingState.LatchInv ∧
    (∃ k : Fin 16, waitingState.latch[k.val] = true) ∧ ∃ t, step waitingState = .next t :=
  ⟨fun _ => waitingState_waiting, ⟨7, by decide⟩, _, rfl⟩

theorem witness_LoadPlacesFontAndProgram : Config.default.wf = true ∧
    4096 < Config.default.programBase.toNat + (List.replicate 3585 (0 : Byte)).length ∧
    Config.default.programBase.toNat + (List.replicate 3584 (0 : Byte)).length ≤ 4096 := by
  refine ⟨by decide, ?_, ?_⟩ <;> rw [List.length_replicate] <;> decide

theorem witness_EveryRunOfALoadedProgramIsSafe : Config.default.wf = true ∧
    ∃ s, State.construct Config.default [0x12, 0x00] = some s ∧ Moves s s.tick :=
  ⟨by decide, _, rfl, .snoc (.refl _) (.tick _)⟩

theorem witness_ReturnUndoesTheMatchingCall : s0.stack.length = s0.cfg.stackCapacity ∧
    s0.sp < s0.cfg.stackCapacity ∧ ∃ t u, exec (.call 0x300) s0 = .next t ∧ MovesAbove t.sp t u ∧ u.sp = t.sp :=
  ⟨by decide, by decide, _, _, rfl, .snoc (.refl _) (.tick _) (by decide), rfl⟩

theorem witness_TicksCommuteWithOtherInstructions :
    (∀ x, Instr.jp 0x234 ≠ .ldVxDt x ∧ Instr.jp 0x234 ≠ .ldDtVx x ∧ Instr.jp 0x234 ≠ .ldStVx x) ∧
    ∃ t, exec (.jp 0x234) s0 = .next t := ⟨fun _ => ⟨nofun, nofun, nofun⟩, _, rfl⟩

theorem witness_ScheduleRealisesEveryInterleaving : s0.schedule = [] ∧ Moves s0 (s0.tick.setKeys (oneKey 3)) :=
  ⟨rfl, .snoc (.snoc (.refl _) (.tick _)) (.keys _ _)⟩

theorem witness_EveryStepIsAMoveOfOneAgent : (∃ t, step s0 = .next t) ∧
    ∃ t, step (haltedState [.executor]) = .next t := ⟨⟨_, rfl⟩, _, rfl⟩

/-- A frame of two Executor turns and three ticks. -/
def someFrame (stop : Bool) : FrameInput := { held := oneKey 3, stop := stop, ticksFirst := 0, ticksNext := [2], ticksAfter := 1 }

theorem witness_FrameRunsToItsEnd : (someFrame true).stop = true ∧ (someFrame false).stop = false := by decide

theorem witness_FrameOfAHaltedMachineOnlyTicks : (someFrame false).stop = false ∧
    (haltedState []).halted.isSome = true := by decide

end Sys2Proof.Tests
end

section
/-! What each family of the decoder answers (spec/30_encoding.md R75, R78): that the instruction is well
formed, and when it is a no-operation. -/

namespace Sys2Proof.Machine

/-! ## The fields of a word as numbers -/

theorem fieldF_toNat (w : Word) : (fieldF w).toNat = w.toNat / 4096 := by
  rw [fieldF, extract_toNat]
  omega

theorem fieldN_toNat (w : Word) : (fieldN w).toNat = w.toNat % 16 := by
  rw [fieldN, extract_toNat]
  omega

theorem fieldNN_toNat (w : Word) : (fieldNN w).toNat = w.toNat % 256 := by
  rw [fieldNN, extract_toNat]
  omega

/-! ## The families of R75 -/

/-- The families whose every word has one meaning. -/
def wholeFamilies : List Nibble := [0x1, 0x2, 0x3, 0x4, 0x6, 0x7, 0xA, 0xB, 0xC, 0xD]

/-- A family is one of these, or one of the six that look further into the word. -/
theorem family_cases (f : Nibble) :
    f ∈ wholeFamilies ∨ f = 0x0 ∨ f = 0x5 ∨ f = 0x8 ∨ f = 0x9 ∨ f = 0xE ∨ f = 0xF := by
  decide +revert

theorem decodeWord_family0 (strict : Bool) {w : Word} (h : fieldF w = 0x0) : decodeWord strict w = decode0 w := by
  simp [decodeWord, h]

theorem decodeWord_family5 (strict : Bool) {w : Word} (h : fieldF w = 0x5) :
    decodeWord strict w = decode5 strict (fieldX w) (fieldY w) (fieldN w) := by
  simp [decodeWord, h]

theorem decodeWord_family8 (strict : Bool) {w : Word} (h : fieldF w = 0x8) :
    decodeWord strict w = decode8 (fieldX w) (fieldY w) (fieldN w) := by
  simp [decodeWord, h]

theorem decodeWord_family9 (strict : Bool) {w : Word} (h : fieldF w = 0x9) :
    decodeWord strict w = decode9 strict (fieldX w) (fieldY w) (fieldN w) := by
  simp [decodeWord, h]

theorem decodeWord_familyE (strict : Bool) {w : Word} (h : fieldF w = 0xE) :
    decodeWord strict w = decodeE (fieldX w) (fieldNN w) := by
  simp [decodeWord, h]

theorem decodeWord_familyF (strict : Bool) {w : Word} (h : fieldF w = 0xF) :
    decodeWord strict w = decodeF (fieldX w) (fieldNN w) := by
  simp [decodeWord, h]

theorem decodeWord_wholeFamily (strict : Bool) {w : Word} (h : fieldF w ∈ wholeFamilies) :
    (decodeWord strict w).wf strict = true ∧ isNop (decodeWord strict w) = false := by
  simp only [wholeFamilies, List.mem_cons, List.not_mem_nil, or_false] at h
  rcases h with h | h | h | h | h | h | h | h | h | h <;> simp [decodeWord, h, Instr.wf, isNop]

/-! ## The words a family leaves to its fallback row -/

theorem decodeE_known (x : RegIdx) (strict : Bool) {nn : Byte} (h : knownE.contains nn = true) :
    (decodeE x nn).wf strict = true ∧ isNop (decodeE x nn) = false := by
  simp only [knownE, List.contains_iff_mem, List.mem_cons, List.not_mem_nil, or_false] at h
  rcases h with rfl | rfl <;> exact ⟨rfl, rfl⟩

theorem decodeE_unknown (x : RegIdx) {nn : Byte} (h : knownE.contains nn = false) : decodeE x nn = .nopE x nn := by
  unfold decodeE
  split
  case h_3 => rfl
  all_goals cases h

theorem decodeF_known (x : RegIdx) (strict : Bool) {nn : Byte} (h : knownF.contains nn = true) :
    (decodeF x nn).wf strict = true ∧ isNop (decodeF x nn) = false := by
  simp only [knownF, List.contains_iff_mem, List.mem_cons, List.not_mem_nil, or_false] at h
  rcases h with rfl | rfl | rfl | rfl | rfl | rfl | rfl | rfl | rfl <;> exact ⟨rfl, rfl⟩

theorem decodeF_unknown (x : RegIdx) {nn : Byte} (h : knownF.contains nn = false) : decodeF x nn = .nopF x nn := by
  unfold decodeF
  split
  case h_10 => rfl
  all_goals cases h

/-! ## What a family decodes is well formed -/

/-- A word of family 0 whose address field is one of CLS and RET is the word of CLS or RET. -/
theorem decode0_wf (strict : Bool) {w : Word} (h : fieldF w = 0x0) : (decode0 w).wf strict = true := by
  have hw : formatA 0x0 (fieldNNN w) = w := h ▸ formatA_fields w
  unfold decode0
  split
  case isTrue => rfl
  case isFalse hcls =>
    split
    case isTrue => rfl
    case isFalse hret =>
      have h0 : fieldNNN w ≠ 0x0E0#12 := fun he => hcls (by rw [← hw, he]; rfl)
      have h1 : fieldNNN w ≠ 0x0EE#12 := fun he => hret (by rw [← hw, he]; rfl)
      simp [Instr.wf, known0, h0, h1]

theorem decode5_wf (strict : Bool) (x y : RegIdx) (n : Nibble) : (decode5 strict x y n).wf strict = true := by
  cases strict <;> by_cases hn : n = 0#4 <;> simp [decode5, hn, Instr.wf]

theorem decode8_wf (strict : Bool) (x y : RegIdx) (n : Nibble) : (decode8 x y n).wf strict = true := by
  unfold decode8
  split <;> rfl

theorem decode9_wf (strict : Bool) (x y : RegIdx) (n : Nibble) : (decode9 strict x y n).wf strict = true := by
  cases strict <;> by_cases hn : n = 0#4 <;> simp [decode9, hn, Instr.wf]

theorem decodeE_wf (strict : Bool) (x : RegIdx) (nn : Byte) : (decodeE x nn).wf strict = true := by
  cases h : knownE.contains nn with
  | true => exact (decodeE_known x strict h).1
  | false => rw [decodeE_unknown x h]; exact congrArg not h

theorem decodeF_wf (strict : Bool) (x : RegIdx) (nn : Byte) : (decodeF x nn).wf strict = true := by
  cases h : knownF.contains nn with
  | true => exact (decodeF_known x strict h).1
  | false => rw [decodeF_unknown x h]; exact congrArg not h

theorem decodeWord_wf (strict : Bool) (w : Word) : (decodeWord strict w).wf strict = true := by
  obtain h | h | h | h | h | h | h := family_cases (fieldF w)
  · exact (decodeWord_wholeFamily strict h).1
  · exact decodeWord_family0 strict h ▸ decode0_wf strict h
  · exact decodeWord_family5 strict h ▸ decode5_wf strict _ _ _
  · exact decodeWord_family8 strict h ▸ decode8_wf strict _ _ _
  · exact decodeWord_family9 strict h ▸ decode9_wf strict _ _ _
  · exact decodeWord_familyE strict h ▸ decodeE_wf strict _ _
  · exact decodeWord_familyF strict h ▸ decodeF_wf strict _ _

/-! ## When a family decodes a no-operation -/

theorem isNop_decode0 (w : Word) : isNop (decode0 w) = (w != 0x00E0 && w != 0x00EE) := by
  by_cases hcls : w = 0x00E0#16
  · subst hcls; rfl
  by_cases hret : w = 0x00EE#16
  · subst hret; rfl
  simp [decode0, hcls, hret, isNop]

theorem isNop_decode5 (strict : Bool) (x y : RegIdx) (n : Nibble) :
    isNop (decode5 strict x y n) = (strict && n != 0) := by
  cases strict <;> by_cases hn : n = 0#4 <;> simp [decode5, hn, isNop]

/-- The low nibble alone decides, so the sixteen words with X = Y = 0 stand for all. -/
theorem isNop_decode8 (x y : RegIdx) (n : Nibble) :
    isNop (decode8 x y n) = [0x8, 0x9, 0xA, 0xB, 0xC, 0xD, 0xF].contains n.toNat := by
  have hselect : ∀ m, isNop (decode8 0 0 m) = [0x8, 0x9, 0xA, 0xB, 0xC, 0xD, 0xF].contains m.toNat := by decide
  rw [← hselect]
  unfold decode8
  split <;> rfl

theorem isNop_decode9 (strict : Bool) (x y : RegIdx) (n : Nibble) :
    isNop (decode9 strict x y n) = (strict && n != 0) := by
  cases strict <;> by_cases hn : n = 0#4 <;> simp [decode9, hn, isNop]

theorem isNop_decodeE (x : RegIdx) (nn : Byte) : isNop (decodeE x nn) = !knownE.contains nn := by
  cases h : knownE.contains nn with
  | true => exact (decodeE_known x false h).2
  | false => rw [decodeE_unknown x h]; rfl

theorem isNop_decodeF (x : RegIdx) (nn : Byte) : isNop (decodeF x nn) = !knownF.contains nn := by
  cases h : knownF.contains nn with
  | true => exact (decodeF_known x false h).2
  | false => rw [decodeF_unknown x h]; rfl

/-- Membership of a list of bytes is membership of the list of their numbers, in which R78 is written. -/
theorem contains_map_toNat (l : List Byte) (nn : Byte) : (l.map BitVec.toNat).contains nn.toNat = l.contains nn := by
  simp only [List.contains_eq_mem, List.mem_map_of_injective BitVec.toNat_injective]

theorem beq_eq_beq_toNat {n : Nat} (a b : BitVec n) : (a == b) = (a.toNat == b.toNat) :=
  BitVec.toNat_injective.beq_eq.symm

/-- `unrecognized` through the fields that the decoder reads. -/
theorem unrecognized_toNat (strict : Bool) (w : Word) : unrecognized strict w.toNat =
    (fieldF w == 0x0 && w != 0x00E0 && w != 0x00EE ||
      fieldF w == 0x8 && [0x8, 0x9, 0xA, 0xB, 0xC, 0xD, 0xF].contains (fieldN w).toNat ||
      fieldF w == 0xE && !knownE.contains (fieldNN w) ||
      fieldF w == 0xF && !knownF.contains (fieldNN w) ||
      strict && (fieldF w == 0x5 || fieldF w == 0x9) && fieldN w != 0) := by
  rw [← contains_map_toNat, ← contains_map_toNat]
  simp only [bne, beq_eq_beq_toNat, fieldF_toNat, fieldN_toNat, fieldNN_toNat]
  rfl

theorem unrecognized_wholeFamily (strict : Bool) {w : Word} (h : fieldF w ∈ wholeFamilies) :
    unrecognized strict w.toNat = false := by
  simp only [wholeFamilies, List.mem_cons, List.not_mem_nil, or_false] at h
  rw [unrecognized_toNat]
  rcases h with h | h | h | h | h | h | h | h | h | h <;> simp [h]

theorem isNop_decodeWord (strict : Bool) (w : Word) :
    isNop (decodeWord strict w) = unrecognized strict w.toNat := by
  obtain h | h | h | h | h | h | h := family_cases (fieldF w)
  · rw [(decodeWord_wholeFamily strict h).2, unrecognized_wholeFamily strict h]
  · rw [decodeWord_family0 strict h, isNop_decode0, unrecognized_toNat]; simp [h]
  · rw [decodeWord_family5 strict h, isNop_decode5, unrecognized_toNat]; simp [h]
  · rw [decodeWord_family8 strict h, isNop_decode8, unrecognized_toNat]; simp [h]
  · rw [decodeWord_family9 strict h, isNop_decode9, unrecognized_toNat]; simp [h]
  · rw [decodeWord_familyE strict h, isNop_decodeE, unrecognized_toNat]; simp [h]
  · rw [decodeWord_familyF strict h, isNop_decodeF, unrecognized_toNat]; simp [h]

/-! ## The Executor's turn, and a no-operation on it -/

/-- On the Executor's turn a step is the Executor's, on the state that has used the turn up. -/
theorem step_of_executorTurn {s : State} {rest : List Turn} (h : s.executorTurn rest) :
    step s = executorStep (s.withSchedule rest) := by
  obtain ⟨hh, ⟨hs, rfl⟩ | hs⟩ := h
  · have hsame : s.withSchedule [] = s := by rw [← hs]; rfl
    rw [hsame]
    simp [step, takeTurn, hs]
  · simp [step, takeTurn, hs, hh, State.withSchedule]

/-- On the Executor's turn, with pc in range, a step runs the decoded instruction. -/
theorem step_run {s : State} {rest : List Turn} (h : s.executorTurn rest) (hp : s.pc.toNat ≤ lastFetch) :
    step s = exec s.fetched (s.withSchedule rest).advance := by
  rw [step_of_executorTurn h, executorStep_run (s := s.withSchedule rest) h.1 hp]
  rfl

theorem exec_nop {i : Instr} (h : isNop i = true) (s : State) : exec i s = .next s := by
  cases i with
  | sys | nopE | nopF | nop5XYN | nop9XYN => rfl
  | nop8XY8 | nop8XY9 | nop8XYA | nop8XYB | nop8XYC | nop8XYD | nop8XYF => rfl
  | _ => cases h

end Sys2Proof.Machine
end

section
/-! The statements of spec/30_encoding.md: R74 and R78. -/

open Sys2Proof Sys2Proof.Machine

/-- Settles O3: a word always decodes, and each family of R75 answers a well-formed instruction. -/
theorem decoderIsTotalOnEveryWord : Obligations.DecoderIsTotalOnEveryWord := by
  intro strict hi lo rest
  exact ⟨decodeWord strict (joinBytes hi lo), rfl, decodeWord_wf strict _⟩

/-- Settles O4: family by family the decoder's fallback rows are R78's list, and a no-operation leaves the
fetched state as it is. -/
theorem unrecognizedWordsOnlyAdvancePc : Obligations.UnrecognizedWordsOnlyAdvancePc := by
  refine ⟨isNop_decodeWord, fun s rest hturn hpc hw => ?_⟩
  have hnop : isNop s.fetched = true := (isNop_decodeWord _ _).trans hw
  rw [step_run hturn hpc, exec_nop hnop]
  rfl

end

section
/-! What a completed 00E0 and a completed DXYN leave in the pixels and in VF (spec/40_display.md R100 to
R103). -/

namespace Sys2Proof.Machine

/-! ## The cleared screen -/

theorem pixel_blankScreen (s : State) (px : Fin 64) (py : Fin 32) :
    ({ s with fb := blankScreen } : State).pixel px py = false := by
  simp [State.pixel, blankScreen]

/-! ## A completed draw -/

/-- The sprite at (Vx, Vy) sets a pixel that is on: the collision that VF reports (R101). -/
def State.spriteCollides (s : State) (x y : RegIdx) (n : Nibble) : Prop :=
  ∃ px py, s.spriteSets x y n px py = true ∧ s.pixel px py = true

/-- `execDrw_spec`, read from a draw that answered `t`, VF told from each of its two values. -/
theorem exec_drw_next {x y : RegIdx} {n : Nibble} {s t : State} (h : exec (.drw x y n) s = .next t) :
    DrawFrame s t ∧ (∀ px py, t.pixel px py = (s.pixel px py ^^ s.spriteSets x y n px py)) ∧
      (t.reg vF = 1 ↔ s.spriteCollides x y n) ∧ (t.reg vF = 0 ↔ ¬ s.spriteCollides x y n) := by
  obtain ⟨t', ht', hrest, hregs, hpix, hon, hoff, -⟩ := execDrw_spec x y n s
  obtain rfl : t' = t := by rw [exec, ht'] at h; injection h
  refine ⟨⟨hrest, hregs⟩, hpix, ⟨fun h1 => ?_, hon⟩, ⟨fun h0 hc => ?_, hoff⟩⟩
  · by_contra hc
    exact absurd (h1.symm.trans (hoff hc)) (by decide)
  · exact absurd (h0.symm.trans (hon hc)) (by decide)

/-! ## A second draw at the same place -/

/-- A draw changes neither I nor memory, so at the same place the sprite sets the same pixels after it. -/
theorem DrawFrame.spriteSets {s t : State} (h : DrawFrame s t) {x y : RegIdx}
    (hcol : t.spriteCol x = s.spriteCol x) (hrow : t.spriteRow y = s.spriteRow y) (n : Nibble)
    (px : Fin 64) (py : Fin 32) : t.spriteSets x y n px py = s.spriteSets x y n px py := by
  have hea : ∀ k, t.ea k = s.ea k := fun k => by rw [h.rest]; rfl
  simp only [State.spriteSets, hcol, hrow, hea, h.byteAt]

end Sys2Proof.Machine
end

section
/-! The statements of spec/40_display.md: R100 to R103. -/

open Sys2Proof Sys2Proof.Machine

/-- Settles O37: the framebuffer is replaced by the blank one, and no other field is written. -/
theorem clearScreenTurnsEveryPixelOff : Obligations.ClearScreenTurnsEveryPixelOff := by
  intro s
  exact ⟨{ s with fb := blankScreen }, rfl, pixel_blankScreen s, fun _ => rfl, rfl⟩

/-- Settles O38: the closed form of a run of sprite rows, at the coordinates read before VF is cleared. -/
theorem drawFlipsThePixelsTheSpriteSets : Obligations.DrawFlipsThePixelsTheSpriteSets := by
  intro x y n s
  obtain ⟨t, ht, -⟩ := execDrw_spec x y n s
  obtain ⟨hframe, hpix, hone, hzero⟩ := exec_drw_next ht
  refine ⟨t, ht, hpix, hone.mpr, fun hclear => hzero.mpr ?_, hframe.regs, hframe.byteAt, hframe.rest⟩
  rintro ⟨px, py, hset, hon⟩
  simp [hclear px py hset] at hon

/-- Settles O39: both draws flip the same pixels, so the second undoes the first, and it collides exactly
where the first turned a pixel on. -/
theorem drawingTwiceRestoresThePixels : Obligations.DrawingTwiceRestoresThePixels := by
  intro x y n s t u hst hcol hrow htu
  obtain ⟨hframe, hfirst, -⟩ := exec_drw_next hst
  obtain ⟨-, hsecond, hone, hzero⟩ := exec_drw_next htu
  have hsame := hframe.spriteSets hcol hrow n
  have hcollides : t.spriteCollides x y n ↔ ∃ px py, s.pixel px py = false ∧ t.pixel px py = true := by
    refine exists_congr fun px => exists_congr fun py => ?_
    rw [hsame, hfirst]
    cases s.pixel px py <;> simp
  refine ⟨fun px py => ?_, hone.trans hcollides, hzero.trans (not_congr hcollides)⟩
  rw [hsecond, hsame, hfirst, Bool.xor_assoc, Bool.xor_self, Bool.xor_false]

end

section
/-! What the control-flow instructions leave in pc, sp and the stack slots (spec/41_control_flow.md). -/

namespace Sys2Proof.Machine

/-! ## Addresses and offsets -/

theorem zextAddr_toNat (nnn : Addr) : (zextAddr nnn).toNat = nnn.toNat :=
  BitVec.toNat_setWidth_of_le (by decide)

theorem zextByte_toNat (v : Byte) : (zextByte v).toNat = v.toNat :=
  BitVec.toNat_setWidth_of_le (by decide)

/-- The target of BNNN is the exact sum: it stays below 2^16 (R118). -/
theorem zextAddr_add_zextByte_toNat (nnn : Addr) (v : Byte) :
    (zextAddr nnn + zextByte v).toNat = nnn.toNat + v.toNat := by
  have haddr := nnn.isLt
  have hbyte := v.isLt
  rw [BitVec.toNat_add, zextAddr_toNat, zextByte_toNat]
  omega

theorem regOfAddr_eq {nnn : Addr} {x : RegIdx} (h : x.val = nnn.toNat / 256) : regOfAddr nnn = x := by
  have hlt := nnn.isLt
  refine Fin.ext ?_
  rw [regOfAddr, BitVec.val_toFin, extract_toNat, h]
  omega

/-! ## Skips -/

/-- An instruction whose meaning is `skipIf b` skips exactly when `b` says so. -/
theorem skipsWhen_of_skipIf {i : Instr} {b : State → Bool} {c : State → Prop}
    (hexec : ∀ s, exec i s = .next (s.skipIf (b s))) (hb : ∀ s, b s = true ↔ c s) : SkipsWhen i c := by
  intro s
  rw [hexec, State.skipIf_eq]
  refine ⟨_, rfl, fun hc => ?_, fun hc => ?_, fun _ => rfl, rfl⟩
  · exact if_pos ((hb s).mpr hc)
  · exact if_neg (mt (hb s).mp hc)

/-! ## Calls and returns -/

/-- 2NNN with room on the stack (R113). -/
theorem exec_call_of_room (nnn : Addr) {s : State} (h : s.sp < s.cfg.stackCapacity) : exec (.call nnn) s =
    .next { s with stack := s.stack.set s.sp s.pc, sp := s.sp + 1, pc := zextAddr nnn } := by
  rw [exec, execCall_eq, if_neg (Nat.ne_of_lt h)]

/-- 00EE with an entry on the stack (R111). -/
theorem exec_ret_of_entry {s : State} (h : 0 < s.sp) :
    exec .ret s = .next { s with pc := s.slot (s.sp - 1), sp := s.sp - 1 } := by
  rw [exec, execRet_eq, if_neg (Nat.ne_of_gt h)]

/-! ## Stack slots -/

theorem slot_of_stack_eq {s t : State} (h : t.stack = s.stack) (k : Nat) : t.slot k = s.slot k := by
  rw [State.slot, h, State.slot]

theorem slot_set_self {s t : State} {k : Nat} {v : Word} (h : t.stack = s.stack.set k v)
    (hk : k < s.stack.length) : t.slot k = v := by
  simp [State.slot, h, hk]

theorem slot_set_ne {s t : State} {j k : Nat} {v : Word} (h : t.stack = s.stack.set k v) (hj : j ≠ k) :
    t.slot j = s.slot j := by
  simp [State.slot, h, List.getElem?_set_ne hj.symm]

/-- An instruction leaves the stack as it is or pushes pc: a return clears no slot. -/
theorem exec_stack {i : Instr} {s t : State} (h : exec i s = .next t) :
    t.stack = s.stack ∨ t.stack = s.stack.set s.sp s.pc := by
  have hframe := exec_frame h
  cases i with
  | call =>
    obtain ⟨-, hfatal⟩ | ⟨-, hpush⟩ := hframe
    · exact .inl (congrArg State.stack hfatal :)
    · exact .inr (congrArg State.stack hpush :)
  | ret =>
    obtain ⟨-, hfatal⟩ | ⟨-, hpop⟩ := hframe
    · exact .inl (congrArg State.stack hfatal :)
    · exact .inl (congrArg State.stack hpop :)
  | seImm | sneImm | seReg | sneReg | skp | sknp =>
    obtain hstay | hskip := hframe
    · exact .inl (congrArg State.stack hstay :)
    · exact .inl (congrArg State.stack hskip :)
  | ldVxK =>
    obtain ⟨hkey, -⟩ | hwait := hframe
    · exact .inl (congrArg State.stack hkey :)
    · exact .inl (congrArg State.stack hwait :)
  | ldImm | addImm | ldReg | orReg | andReg | xorReg | ldVxDt | addReg | subReg | shrReg | subnReg | shlReg
  | rnd | addI | drw | ldRegs =>
    obtain ⟨hrest, -⟩ := hframe
    exact .inl (congrArg State.stack hrest :)
  | _ => exact .inl (congrArg State.stack hframe :)

/-- A push goes to slot sp, so an instruction keeps every slot below sp. -/
theorem exec_keeps_slot {i : Instr} {s t : State} (h : exec i s = .next t) {j : Nat} (hj : j < s.sp) :
    t.slot j = s.slot j := by
  obtain hsame | hpush := exec_stack h
  · exact slot_of_stack_eq hsame j
  · exact slot_set_ne hpush (Nat.ne_of_lt hj)

/-- So does every move of an agent. -/
theorem Move.keeps_slot {s t : State} (m : Move s t) {j : Nat} (hj : j < s.sp) : t.slot j = s.slot j := by
  cases m with
  | executor h =>
    obtain ⟨-, ⟨-, rfl⟩ | ⟨-, hrun⟩⟩ := executorStep_cases h
    · rfl
    · exact exec_keeps_slot hrun hj
  | tick => rfl
  | keys => rfl

/-- Moves that never leave fewer than `k` entries keep at least `k`. -/
theorem MovesAbove.le_sp {k : Nat} {s t : State} (h : MovesAbove k s t) (hs : k ≤ s.sp) : k ≤ t.sp := by
  cases h with
  | refl => exact hs
  | snoc _ _ hk => exact hk

/-- They keep each of the first `k` slots: no move in between pushes there (R120). -/
theorem MovesAbove.keeps_slot {k : Nat} {s t : State} (h : MovesAbove k s t) (hs : k ≤ s.sp) {j : Nat}
    (hj : j < k) : t.slot j = s.slot j := by
  induction h with
  | refl => rfl
  | snoc hmoves hmove _ ih =>
    exact (hmove.keeps_slot (Nat.lt_of_lt_of_le hj (hmoves.le_sp hs))).trans ih

end Sys2Proof.Machine
end

section
/-! The statements of spec/41_control_flow.md. -/

open Sys2Proof Sys2Proof.Machine

/-- Settles O54: the call's slot lies below the entries that the moves in between work on, so the return
finds the pushed address in it. -/
theorem returnUndoesTheMatchingCall : Obligations.ReturnUndoesTheMatchingCall := by
  intro nnn s t u hlen hroom hcall hmoves hsp
  obtain rfl := Host.Outcome.next.inj ((exec_call_of_room nnn hroom).symm.trans hcall)
  change u.sp = s.sp + 1 at hsp
  have hslot : u.slot s.sp = s.pc :=
    (hmoves.keeps_slot le_rfl (Nat.lt_succ_self s.sp)).trans (slot_set_self rfl (hlen ▸ hroom))
  refine ⟨_, exec_ret_of_entry (by omega), ?_, ?_, rfl⟩
  · simp only [hsp, Nat.add_sub_cancel, hslot]
  · simp only [hsp, Nat.add_sub_cancel]

/-- Settles O18: each no-operation's meaning answers its argument. -/
theorem nopsCompleteAndChangeNothing : Obligations.NopsCompleteAndChangeNothing :=
  fun _ s h => exec_nop h s

/-- Settles O19: both write the zero-extended address to one field. -/
theorem jumpAndLoadIndexTakeTheAddress : Obligations.JumpAndLoadIndexTakeTheAddress := by
  intro nnn s
  exact ⟨⟨s.setPc (zextAddr nnn), rfl, zextAddr_toNat nnn, s.byteAt_setPc _, rfl⟩,
    ⟨s.setI (zextAddr nnn), rfl, zextAddr_toNat nnn, s.byteAt_setI _, rfl⟩⟩

/-- Settles O20: 3XNN tests Vx = NN, 4XNN the opposite. -/
theorem immediateSkipsPassOneWord : Obligations.ImmediateSkipsPassOneWord :=
  fun _ _ => ⟨skipsWhen_of_skipIf (fun _ => rfl) fun _ => beq_iff_eq,
    skipsWhen_of_skipIf (fun _ => rfl) fun _ => bne_iff_ne⟩

/-- Settles O21: 5XYN tests Vx = Vy, 9XYN the opposite, and neither meaning reads N. -/
theorem registerSkipsPassOneWord : Obligations.RegisterSkipsPassOneWord :=
  fun _ _ _ => ⟨skipsWhen_of_skipIf (fun _ => rfl) fun _ => beq_iff_eq,
    skipsWhen_of_skipIf (fun _ => rfl) fun _ => bne_iff_ne⟩

/-- Settles O23: in either mode the target is the exact sum with that mode's register. -/
theorem jumpWithOffsetAddsTheSelectedRegister : Obligations.JumpWithOffsetAddsTheSelectedRegister := by
  intro nnn x s hx
  have hsum : (zextAddr nnn + zextByte (s.jumpOffset nnn)).toNat =
      nnn.toNat + (if s.usesVx then s.reg x else s.reg v0).toNat := by
    rw [zextAddr_add_zextByte_toNat, State.jumpOffset, regOfAddr_eq hx]
  refine ⟨s.setPc _, rfl, fun hmode => ?_, fun hmode => ?_, fun _ => ?_, s.byteAt_setPc _, rfl⟩
  · simpa [State.usesVx, hmode] using hsum
  · simpa [State.usesVx, hmode] using hsum
  · cases hmode : s.usesVx with
    | false => exact .inl (by simpa [hmode] using hsum)
    | true => exact .inr (by simpa [hmode] using hsum)

/-- Settles O24: slot sp exists, since the stack has STACK_CAPACITY slots. -/
theorem callPushesTheReturnAddress : Obligations.CallPushesTheReturnAddress := by
  intro nnn s hlen hroom
  exact ⟨_, exec_call_of_room nnn hroom, slot_set_self rfl (hlen ▸ hroom), fun _ hk => slot_set_ne rfl hk, rfl,
    zextAddr_toNat nnn, fun _ => rfl, rfl⟩

/-- Settles O25: a return with an entry on the stack writes pc and sp alone. -/
theorem returnPopsTheProgramCounter : Obligations.ReturnPopsTheProgramCounter :=
  fun _ hentry => ⟨_, exec_ret_of_entry hentry, rfl, rfl, fun _ => rfl, rfl⟩

/-- Settles O26: the failing case of each of the two meanings is `raiseFatal` at the instruction's address. -/
theorem stackErrorsAreFatalAndPrecise : Obligations.StackErrorsAreFatalAndPrecise := by
  intro s nnn
  refine ⟨fun hempty => ?_, fun hfull => ?_⟩
  · rw [exec, execRet_eq, if_pos hempty]; rfl
  · rw [exec, execCall_eq, if_pos hfull]; rfl

end

section
/-! What the register-arithmetic instructions leave in Vx and VF (spec/42_alu.md). -/

namespace Sys2Proof.Machine

/-! ## Values and flags -/

theorem add_eq_ofNat_mod (a b : Byte) : a + b = BitVec.ofNat 8 ((a.toNat + b.toNat) % 256) :=
  BitVec.eq_of_toNat_eq (by simp)

theorem sub_toNat (a b : Byte) : (a - b).toNat = (256 + a.toNat - b.toNat) % 256 := by
  have hb := b.isLt
  rw [BitVec.toNat_sub]
  omega

theorem shiftRight_one_toNat (v : Byte) : (v >>> 1).toNat = v.toNat / 2 := by
  rw [BitVec.toNat_ushiftRight, Nat.shiftRight_eq_div_pow]

theorem shiftLeft_one_toNat (v : Byte) : (v <<< 1).toNat = 2 * v.toNat % 256 := by
  rw [BitVec.toNat_shiftLeft, Nat.shiftLeft_eq, Nat.mul_comm]

theorem getLsbD_zero_iff (v : Byte) : v.getLsbD 0 = true ↔ v.toNat % 2 = 1 := by
  rw [BitVec.getLsbD, Nat.testBit_zero, decide_eq_true_iff]

theorem getLsbD_seven_iff (v : Byte) : v.getLsbD 7 = true ↔ 128 ≤ v.toNat := by
  have hmsb : v.getLsbD 7 = v.msb := (BitVec.msb_eq_getLsbD_last v).symm
  rw [hmsb, BitVec.msb_eq_decide, decide_eq_true_iff]

theorem flagByte_of_iff {b : Bool} {p : Prop} (h : b = true ↔ p) :
    (p → flagByte b = 1) ∧ (¬ p → flagByte b = 0) := by
  cases b with
  | true => exact ⟨fun _ => rfl, fun hp => absurd (h.mp rfl) hp⟩
  | false => exact ⟨fun hp => absurd (h.mpr hp) Bool.false_ne_true, fun _ => rfl⟩

/-! ## Instructions that write one register -/

/-- An instruction whose meaning is one `setReg` writes that register alone. -/
theorem writesReg_of_setReg {i : Instr} {x : RegIdx} {v : State → Byte}
    (hexec : ∀ s, exec i s = .next (s.setReg x (v s))) : WritesReg i x v :=
  fun s => ⟨s.setReg x (v s), hexec s, s.reg_setReg_self x _, fun _ hy => s.reg_setReg_ne hy _,
    s.byteAt_setReg x _, rfl⟩

/-! ## Instructions that write a result and a flag -/

theorem State.reg_writeResultAndFlag_result {s : State} {x : RegIdx} (res flag : Byte)
    (h : x ≠ vF ∨ s.cfg.flagWriteLast = false) : (s.writeResultAndFlag x res flag).reg x = res := by
  have hlast : ¬ (x = vF ∧ (x ≠ vF ∨ s.cfg.flagWriteLast = true)) := by
    rintro ⟨rfl, hlast⟩
    simp only [ne_eq, not_true_eq_false, false_or] at h hlast
    exact Bool.false_ne_true (h.symm.trans hlast)
  rw [s.reg_writeResultAndFlag, if_neg hlast, if_pos rfl]

theorem State.reg_writeResultAndFlag_flag {s : State} {x : RegIdx} (res flag : Byte)
    (h : x ≠ vF ∨ s.cfg.flagWriteLast = true) : (s.writeResultAndFlag x res flag).reg vF = flag := by
  rw [s.reg_writeResultAndFlag, if_pos ⟨rfl, h⟩]

/-- An instruction whose meaning is WriteResultAndFlag (R131), on a state `base s` that differs from `s` in
Vx alone: the shifts first copy Vy into Vx. -/
theorem writesResultAndFlag_of_base {i : Instr} {x : RegIdx} {base : State → State} {r : State → Byte}
    {b : State → Bool} {res : State → Nat} {flag : State → Prop}
    (hbase : ∀ s, base s = { s with V := (base s).V } ∧ SameRegsBut x s (base s))
    (hexec : ∀ s, exec i s = .next ((base s).writeResultAndFlag x (r s) (flagByte (b s))))
    (hres : ∀ s, (r s).toNat = res s) (hflag : ∀ s, b s = true ↔ flag s) :
    WritesResultAndFlag i x res flag := by
  intro s
  obtain ⟨hbaseV, hbaseRegs⟩ := hbase s
  obtain ⟨hV, hregs⟩ := writeResultAndFlag_frame (base s) x (r s) (flagByte (b s))
  have hcfg : (base s).cfg = s.cfg := by rw [hbaseV]
  refine ⟨_, hexec s, fun h => ?_, fun h => ?_, fun y hx hF => (hregs y hx hF).trans (hbaseRegs y hx),
    fun a => ?_, ?_⟩
  · rw [State.reg_writeResultAndFlag_result _ _ (hcfg ▸ h), hres]
  · rw [State.reg_writeResultAndFlag_flag _ _ (hcfg ▸ h)]
    exact flagByte_of_iff (hflag s)
  · rw [hV, hbaseV]; rfl
  · rw [hV, hbaseV]

/-- The same for an instruction that copies nothing first. -/
theorem writesResultAndFlag_of_exec {i : Instr} {x : RegIdx} {r : State → Byte} {b : State → Bool}
    {res : State → Nat} {flag : State → Prop}
    (hexec : ∀ s, exec i s = .next (s.writeResultAndFlag x (r s) (flagByte (b s))))
    (hres : ∀ s, (r s).toNat = res s) (hflag : ∀ s, b s = true ↔ flag s) :
    WritesResultAndFlag i x res flag :=
  writesResultAndFlag_of_base (base := id) (fun _ => ⟨rfl, fun _ _ => rfl⟩) hexec hres hflag

/-- The value that 8XY6 and 8XYE shift. -/
theorem State.reg_shiftCopy (s : State) (x y : RegIdx) :
    (s.shiftCopy x y).reg x = if s.cfg.shiftCopiesVy then s.reg y else s.reg x := by
  unfold State.shiftCopy
  split
  · exact s.reg_setReg_self x _
  · rfl

end Sys2Proof.Machine
end

section
/-! The statements of spec/42_alu.md. -/

open Sys2Proof Sys2Proof.Machine

/-- Settles O15: the three meanings are one WriteResultAndFlag each, with the byte sum or difference and the
flag's comparison. -/
theorem addAndSubtractWriteResultAndFlag : Obligations.AddAndSubtractWriteResultAndFlag := fun _ _ =>
  ⟨writesResultAndFlag_of_exec (fun _ => rfl) (fun _ => BitVec.toNat_add _ _) (fun _ => decide_eq_true_iff),
    writesResultAndFlag_of_exec (fun _ => rfl) (fun _ => sub_toNat _ _) (fun _ => decide_eq_true_iff),
    writesResultAndFlag_of_exec (fun _ => rfl) (fun _ => sub_toNat _ _) (fun _ => decide_eq_true_iff)⟩

/-- Settles O16: both meanings are one WriteResultAndFlag after the copy, which changes Vx alone and leaves the
value to shift there. -/
theorem shiftsWriteResultAndBitShiftedOut : Obligations.ShiftsWriteResultAndBitShiftedOut := by
  intro x y v
  have hv : ∀ s : State, ((s.shiftCopy x y).reg x).toNat = v s := fun s => by rw [s.reg_shiftCopy]
  refine ⟨writesResultAndFlag_of_base (fun s => shiftCopy_frame s x y) (fun _ => rfl) (fun s => ?_) (fun s => ?_),
    writesResultAndFlag_of_base (fun s => shiftCopy_frame s x y) (fun _ => rfl) (fun s => ?_) (fun s => ?_)⟩
  · rw [shiftRight_one_toNat, hv]
  · rw [getLsbD_zero_iff, hv]
  · rw [shiftLeft_one_toNat, hv]
  · rw [getLsbD_seven_iff, hv]

/-- Settles O13: each meaning is one write of Vx. -/
theorem loadsAndLogicWriteVx : Obligations.LoadsAndLogicWriteVx := fun _ _ _ =>
  ⟨writesReg_of_setReg fun _ => rfl, writesReg_of_setReg fun _ => rfl, writesReg_of_setReg fun _ => rfl,
    writesReg_of_setReg fun _ => rfl, writesReg_of_setReg fun _ => rfl⟩

/-- Settles O14: the byte sum is the sum modulo 256, and VF is not written. -/
theorem addImmediateWrapsWithoutFlag : Obligations.AddImmediateWrapsWithoutFlag := fun x nn =>
  writesReg_of_setReg fun s => by rw [← add_eq_ofNat_mod]; rfl

/-- Settles O17: Vx receives the draw masked with NN, after the draw is counted. -/
theorem randomByteIsMaskedWithImmediate : Obligations.RandomByteIsMaskedWithImmediate := by
  intro x nn s
  let t := s.countDraw.setReg x (s.nextDraw &&& nn)
  have hx : t.reg x = Config.draw8 s.draws &&& nn := s.countDraw.reg_setReg_self x _
  refine ⟨t, rfl, hx, fun b hb => ?_, fun hnn => ?_, rfl, fun _ hy => s.countDraw.reg_setReg_ne hy _,
    fun _ => rfl, rfl⟩
  · rw [hx, BitVec.getLsbD_and, hb, Bool.and_false]
  · rw [hx, hnn]
    exact BitVec.and_allOnes

end

section
/-! What the instructions that use I leave in I, memory, the registers and the AOR status
(spec/43_index_memory.md, spec/60_exceptions.md R204). -/

namespace Sys2Proof.Machine

/-! ## The values of FX1E, FX29 and FX33 -/

/-- The base of FX1E and of every access through I is I modulo 4096 (R151, R152). -/
theorem index_mask_toNat (v : Word) : (v &&& 0x0FFF).toNat = v.toNat % 4096 := by
  rw [BitVec.toNat_and]
  exact Nat.and_two_pow_sub_one_eq_mod v.toNat 12

theorem State.ea_eq (s : State) (k : Nat) : s.ea k = s.I.toNat % 4096 + k := by
  rw [State.ea, State.indexBase, index_mask_toNat]

/-- The sum of FX1E is exact: it stays below 2^16. -/
theorem State.indexSum_toNat (s : State) (x : RegIdx) :
    (s.indexSum x).toNat = s.I.toNat % 4096 + (s.reg x).toNat := by
  have hbyte := (s.reg x).isLt
  rw [State.indexSum, BitVec.toNat_add, index_mask_toNat, zextByte_toNat]
  omega

/-- Below 2 × 4096, bit 12 says that the sum has reached 4096 (R153). -/
theorem indexOverflow_iff {v : Word} (h : v.toNat < 8192) : indexOverflow v = true ↔ 4096 ≤ v.toNat := by
  rw [indexOverflow, BitVec.getLsbD, Nat.testBit_eq_decide_div_mod_eq, decide_eq_true_iff]
  omega

/-- The address of FX29 is exact: it stays below 2^16 (R154). -/
theorem fontAddress_toNat (base : Addr) (v : Byte) :
    (zextAddr base + 5 * zextByte v).toNat = base.toNat + 5 * v.toNat := by
  have hbase := base.isLt
  have hbyte := v.isLt
  rw [BitVec.toNat_add, BitVec.toNat_mul, zextAddr_toNat, zextByte_toNat, show (5 : Word).toNat = 5 from rfl]
  omega

theorem hundreds_toNat (v : Byte) : (hundreds v).toNat = v.toNat / 100 := by
  have hv := v.isLt
  rw [hundreds, BitVec.toNat_ofNat]
  omega

theorem tens_toNat (v : Byte) : (tens v).toNat = v.toNat / 10 % 10 := by
  rw [tens, BitVec.toNat_ofNat]
  omega

theorem ones_toNat (v : Byte) : (ones v).toNat = v.toNat % 10 := by
  rw [ones, BitVec.toNat_ofNat]
  omega

/-! ## The instructions that access memory through I -/

/-- `i` on `s` accesses memory through I at the offsets below `n`: the digits of FX33, the registers of FX55
and FX65, the rows of DXYN that lie on the screen. -/
inductive Accesses (s : State) : Instr → Nat → Prop where
  | ldB (x : RegIdx) : Accesses s (.ldB x) 3
  | stRegs (x : RegIdx) : Accesses s (.stRegs x) (x.val + 1)
  | ldRegs (x : RegIdx) : Accesses s (.ldRegs x) (x.val + 1)
  | drw (x y : RegIdx) (n : Nibble) : Accesses s (.drw x y n) (s.rowsOnScreen y n)

/-- No instruction makes more than sixteen accesses. -/
theorem Accesses.le_sixteen {s : State} {i : Instr} {n : Nat} (h : Accesses s i n) : n ≤ 16 := by
  cases h with
  | ldB => decide
  | stRegs x | ldRegs x => exact x.isLt
  | drw x y n => exact (Nat.min_le_left _ _).trans n.isLt.le

/-- What an instruction that accesses memory can change. -/
def AccessFrame (s t : State) : Prop :=
  t = { s with V := t.V, fb := t.fb, mem := t.mem, aor := t.aor, aorLog := t.aorLog }

/-- Such an instruction completes, keeps memory's canonical form, and records its accesses beyond memory. -/
theorem Accesses.exec_next {s : State} {i : Instr} {n : Nat} (h : Accesses s i n) :
    ∃ t, exec i s = .next t ∧ AccessFrame s t ∧ (s.mem.wf = true → t.mem.wf = true) ∧
      AorAfter s t (List.range n) := by
  cases h with
  | ldB x =>
    obtain ⟨t, ht, hrest, haor, hmem⟩ := execLdB_spec x s
    exact ⟨t, ht, by rw [hrest]; rfl, fun hwf => (hmem hwf).1, haor⟩
  | stRegs x =>
    obtain ⟨t, ht, hrest, haor, hmem⟩ := execStRegs_spec x s
    exact ⟨t, ht, by rw [hrest]; rfl, fun hwf => (hmem hwf).1, haor⟩
  | ldRegs x =>
    obtain ⟨t, ht, hrest, haor, -⟩ := execLdRegs_spec x s
    exact ⟨t, ht, by rw [hrest]; rfl, fun hwf => by rw [hrest]; exact hwf, haor⟩
  | drw x y n =>
    obtain ⟨t, ht, hrest, -, -, -, -, haor⟩ := execDrw_spec x y n s
    exact ⟨t, ht, by rw [hrest]; rfl, fun hwf => by rw [hrest]; exact hwf, haor⟩

/-- An instruction that accesses no memory leaves the AOR status and its record alone. -/
theorem exec_accesses_or_aor_same {i : Instr} {s t : State} (h : exec i s = .next t) :
    (∃ n, Accesses s i n) ∨ t.aor = s.aor ∧ t.aorLog = s.aorLog := by
  have hframe := exec_frame h
  cases i with
  | ldB x => exact .inl ⟨_, .ldB x⟩
  | stRegs x => exact .inl ⟨_, .stRegs x⟩
  | ldRegs x => exact .inl ⟨_, .ldRegs x⟩
  | drw x y n => exact .inl ⟨_, .drw x y n⟩
  | ret | call => obtain ⟨-, hrest⟩ | ⟨-, hrest⟩ := hframe <;> exact .inr (by rw [hrest]; exact ⟨rfl, rfl⟩)
  | seImm | sneImm | seReg | sneReg | skp | sknp =>
    obtain hrest | hrest := hframe <;> exact .inr (by rw [hrest]; exact ⟨rfl, rfl⟩)
  | ldVxK => obtain ⟨hrest, -⟩ | hrest := hframe <;> exact .inr (by rw [hrest]; exact ⟨rfl, rfl⟩)
  | ldImm | addImm | ldReg | orReg | andReg | xorReg | ldVxDt | addReg | subReg | shrReg | subnReg | shlReg
  | rnd | addI =>
    obtain ⟨hrest, -⟩ := hframe
    exact .inr (by rw [hrest]; exact ⟨rfl, rfl⟩)
  | _ => exact .inr (by rw [hframe]; exact ⟨rfl, rfl⟩)

/-! ## The AOR status after a run of accesses -/

theorem State.mem_aorOf_range {s : State} {n a : Nat} :
    a ∈ s.aorOf (List.range n) ↔ ∃ k, k < n ∧ lastByte < s.ea k ∧ s.ea k = a := by
  simp [State.aorOf, and_assoc]

/-- The status is set exactly when it was or an access lies beyond memory (R204). -/
theorem AorAfter.status_iff {s t : State} {n : Nat} (h : AorAfter s t (List.range n)) :
    t.aor = true ↔ s.aor = true ∨ ∃ k, k < n ∧ lastByte < s.ea k := by
  have hsome : (!(s.aorOf (List.range n)).isEmpty) = true ↔ ∃ k, k < n ∧ lastByte < s.ea k := by
    simp [State.aorOf]
  rw [h.1, Bool.or_eq_true, hsome]

/-- Accesses keep the status in step with the record. -/
theorem AorAfter.keeps_aor_iff {s t : State} {ks : List Nat} (h : AorAfter s t ks)
    (hs : s.aor = true ↔ s.aorLog ≠ []) : t.aor = true ↔ t.aorLog ≠ [] := by
  rw [h.1, h.2]
  simp [hs, imp_iff_not_or]

/-- The base of an access is at most 0x0FFF, so one of sixteen accesses that lies beyond memory lies just
above it (R151). -/
theorem AorAfter.keeps_aor_range {s t : State} {n : Nat} (h : AorAfter s t (List.range n)) (hn : n ≤ 16)
    (hs : ∀ a ∈ s.aorLog, 0x1000 ≤ a ∧ a ≤ 0x100E) : ∀ a ∈ t.aorLog, 0x1000 ≤ a ∧ a ≤ 0x100E := by
  intro a ha
  rw [h.2, List.mem_append] at ha
  obtain hold | hnew := ha
  · exact hs a hold
  · obtain ⟨k, hk, hout, rfl⟩ := State.mem_aorOf_range.mp hnew
    rw [State.ea_eq] at hout ⊢
    unfold lastByte at hout
    omega

end Sys2Proof.Machine
end

section
/-! Every step keeps the invariant of the state: a rule for each kind of write, then the instructions, the
Executor's step and the moves of the agents. -/

namespace Sys2Proof.Machine

/-! ## The writes of an instruction -/

theorem zextAddr_toNat_le (nnn : Addr) : (zextAddr nnn).toNat ≤ 0x0FFF := by
  rw [zextAddr_toNat]
  exact Nat.le_of_lt_succ nnn.isLt

namespace State.Inv

variable {s t : State}

/-- A target of a running machine within R27's bound. -/
theorem setPc (hinv : s.Inv) (hrun : s.halted = none) {a : Word} (ha : a.toNat ≤ maxPc) : (s.setPc a).Inv :=
  { hinv with
    pc_le := ha
    halted_pc := by simp [hrun] }

theorem setI (hinv : s.Inv) {v : Word} (hv : v.toNat ≤ 0x0FFF + 5 * 255) : (s.setI v).Inv :=
  { hinv with index_le := hv }

theorem raiseFatal (hinv : s.Inv) (kind : FatalKind) {a : Word} (ha : a.toNat ≤ maxPc) :
    (s.raiseFatal kind a).Inv :=
  { hinv with
    pc_le := ha
    halted_pc := fun _ => rfl }

/-- A push of a return address on a stack with room. -/
theorem pushed (hinv : s.Inv) (hroom : s.sp ≠ s.cfg.stackCapacity) {v : Word} (hv : v.toNat ≤ 0x1000) :
    ({ s with stack := s.stack.set s.sp v, sp := s.sp + 1 } : State).Inv :=
  { hinv with
    stack_length := List.length_set.trans hinv.stack_length
    sp_le := Nat.lt_of_le_of_ne hinv.sp_le hroom
    slot_le := fun a ha => (List.mem_or_eq_of_mem_set ha).elim (hinv.slot_le a) (fun e => e ▸ hv) }

theorem popped (hinv : s.Inv) : ({ s with sp := s.sp - 1 } : State).Inv :=
  { hinv with sp_le := (Nat.sub_le _ _).trans hinv.sp_le }

/-- A slot holds a return address, and one that does not exist reads as 0. -/
theorem slot_toNat_le (hinv : s.Inv) (k : Nat) : (s.slot k).toNat ≤ 0x1000 := by
  rw [State.slot, List.getD_eq_getElem?_getD]
  cases hk : s.stack[k]? with
  | none => decide
  | some a => exact hinv.slot_le a (List.mem_of_getElem? hk)

/-- The accesses of an instruction through I. -/
theorem accessed (hinv : s.Inv) {i : Instr} {n : Nat} (hi : Accesses s i n) (h : exec i s = .next t) : t.Inv := by
  obtain ⟨u, hu, hrest, hmem, haor⟩ := hi.exec_next
  obtain rfl := Host.Outcome.next.inj (hu.symm.trans h)
  have hwf := hmem hinv.mem_wf
  have hiff := haor.keeps_aor_iff hinv.aor_iff
  have hrange := haor.keeps_aor_range hi.le_sixteen hinv.aor_range
  rw [hrest]
  exact { hinv with mem_wf := hwf, aor_iff := hiff, aor_range := hrange }

/-! ## The instructions -/

/-- An instruction at an address that can be fetched from keeps the invariant. -/
theorem exec_next (hinv : s.Inv) (hrun : s.halted = none) (haddr : s.instrAddr.toNat ≤ lastFetch) {i : Instr}
    (h : exec i s = .next t) : t.Inv := by
  have hback : s.instrAddr.toNat ≤ maxPc := haddr.trans (by decide)
  have hpc : s.pc.toNat ≤ 0x1000 := by unfold State.instrAddr lastFetch at haddr; bv_omega
  have hskip : (s.pc + 2).toNat ≤ maxPc := by unfold maxPc; bv_omega
  have hframe := exec_frame h
  cases i with
  | ret =>
    obtain ⟨-, rfl⟩ | ⟨-, rfl⟩ := hframe
    · exact hinv.raiseFatal _ hback
    · exact hinv.popped.setPc hrun ((hinv.slot_toNat_le _).trans (by decide))
  | call nnn =>
    obtain ⟨-, rfl⟩ | ⟨hroom, rfl⟩ := hframe
    · exact hinv.raiseFatal _ hback
    · exact (hinv.pushed hroom hpc).setPc hrun ((zextAddr_toNat_le nnn).trans (by decide))
  | jp nnn =>
    rw [hframe]
    exact hinv.setPc hrun ((zextAddr_toNat_le nnn).trans (by decide))
  | jpOff nnn =>
    have hoff := (s.jumpOffset nnn).isLt
    rw [hframe]
    exact hinv.setPc hrun (by rw [zextAddr_add_zextByte_toNat]; unfold maxPc; omega)
  | seImm | sneImm | seReg | sneReg | skp | sknp =>
    obtain rfl | rfl := hframe
    · exact hinv
    · exact hinv.setPc hrun hskip
  | ldVxK =>
    obtain ⟨hkey, -⟩ | hwait := hframe
    · rw [hkey]; exact { hinv with }
    · rw [hwait]; exact { hinv.setPc hrun hback with }
  | ldI nnn =>
    rw [hframe]
    exact hinv.setI ((zextAddr_toNat_le nnn).trans (by decide))
  | ldF x =>
    have hbyte := (s.reg x).isLt
    rw [hframe]
    exact hinv.setI (by rw [fontAddress_toNat]; omega)
  | addI x =>
    obtain ⟨hrest, -⟩ := hframe
    have hbyte := (s.reg x).isLt
    rw [hrest]
    exact { hinv.setI (v := s.indexSum x) (by rw [State.indexSum_toNat]; omega) with }
  | ldB x => exact hinv.accessed (.ldB x) h
  | stRegs x => exact hinv.accessed (.stRegs x) h
  | ldRegs x => exact hinv.accessed (.ldRegs x) h
  | drw x y n => exact hinv.accessed (.drw x y n) h
  | ldImm | addImm | ldReg | orReg | andReg | xorReg | ldVxDt | addReg | subReg | shrReg | subnReg | shlReg
  | rnd =>
    obtain ⟨hrest, -⟩ := hframe
    rw [hrest]
    exact { hinv with }
  | _ =>
    rw [hframe]
    exact { hinv with }

/-! ## The moves of the agents -/

theorem executorStep_next (hinv : s.Inv) (h : executorStep s = .next t) : t.Inv := by
  obtain ⟨hrun, ⟨-, rfl⟩ | ⟨hpc, hexec⟩⟩ := executorStep_cases h
  · exact hinv.raiseFatal _ hinv.pc_le
  · have haddr : s.advance.instrAddr = s.pc := BitVec.add_sub_cancel s.pc 2
    have hadvance : s.advance.Inv := hinv.setPc hrun (by unfold lastFetch at hpc; unfold maxPc; bv_omega)
    exact hadvance.exec_next hrun (haddr ▸ hpc) hexec

theorem move (hinv : s.Inv) (hmove : Move s t) : t.Inv := by
  cases hmove with
  | executor h => exact hinv.executorStep_next h
  | tick => exact { hinv with }
  | keys => exact { hinv with }

theorem withSchedule (hinv : s.Inv) (turns : List Turn) : (s.withSchedule turns).Inv :=
  { hinv with }

end State.Inv

end Sys2Proof.Machine
end

section
/-! The statements of spec/43_index_memory.md, and the invariant of spec/10_state.md. -/

open Sys2Proof Sys2Proof.Machine

/-- Settles O49: a step is a move of one agent or passes an Executor turn over, on the state that has used the
turn up; the invariant does not speak of the schedule. -/
theorem everyStepKeepsTheInvariant : Obligations.EveryStepKeepsTheInvariant := by
  intro s t hinv h
  have hturn := hinv.withSchedule s.schedule.tail
  obtain hexec | ⟨-, rfl⟩ | rfl | ⟨held, rfl⟩ := step_cases h
  · exact hturn.move (.executor hexec)
  · exact hturn
  · exact hturn.move (.tick _)
  · exact hturn.move (.keys _ held)

/-- Settles O29: the exact sum is below 8192, so its bit 12 is the flag. -/
theorem addToIndexSetsFlagOnBitTwelve : Obligations.AddToIndexSetsFlagOnBitTwelve := by
  intro x s
  obtain ⟨t, ht⟩ : ∃ t, t = (s.setI (s.indexSum x)).writeIndexFlag (s.indexSum x) := ⟨_, rfl⟩
  have hexec : exec (.addI x) s = .next t := ht ▸ rfl
  obtain ⟨hrest, hregs⟩ := exec_frame hexec
  have hI : t.I = s.indexSum x := by rw [hrest]
  have hsum := s.indexSum_toNat x
  have hbyte := (s.reg x).isLt
  have hover := indexOverflow_iff (v := s.indexSum x) (by omega)
  have hflag : t.reg vF = if indexOverflow (s.indexSum x) then 1 else
      if s.cfg.fx1eClearsVf then 0 else s.reg vF := by rw [ht, State.reg_writeIndexFlag]; rfl
  refine ⟨t, hexec, hI ▸ hsum, fun hle => ?_, fun hlt => ?_, hregs, fun a => ?_, ?_⟩
  · rw [hflag, if_pos (hover.mpr (hI ▸ hle))]
  · rw [hflag, if_neg fun ho => Nat.not_lt.mpr (hover.mp ho) (hI ▸ hlt)]
  · rw [hrest]; rfl
  · rw [hI]; exact hrest

/-- Settles O31: the model's three digits are the decimal ones, at the offsets 0, 1 and 2. -/
theorem decimalStoreWritesThreeDigits : Obligations.DecimalStoreWritesThreeDigits := by
  intro x s hwf
  obtain ⟨t, ht, hrest, -, hmem⟩ := execLdB_spec x s
  obtain ⟨-, hdigit, hother⟩ := hmem hwf
  refine ⟨t, (s.reg x).toNat / 100, (s.reg x).toNat / 10 % 10, (s.reg x).toNat % 10, ht, by omega, by omega,
    by omega, fun h0 => ?_, fun h1 => ?_, fun h2 => ?_, fun a ha => ?_, hrest⟩
  · exact (congrArg BitVec.toNat (hdigit 0 (by decide) h0)).trans (hundreds_toNat _)
  · exact (congrArg BitVec.toNat (hdigit 1 (by decide) h1)).trans (tens_toNat _)
  · exact (congrArg BitVec.toNat (hdigit 2 (by decide) h2)).trans (ones_toNat _)
  · exact hother a fun k hk => ha k.val (Nat.lt_succ_of_le hk)

/-- Settles O32: the run of stores of V0 to Vx. -/
theorem storeRegistersWritesV0ToVx : Obligations.StoreRegistersWritesV0ToVx := by
  intro x s hwf
  obtain ⟨t, ht, hrest, -, hmem⟩ := execStRegs_spec x s
  obtain ⟨-, hstored, hother⟩ := hmem hwf
  exact ⟨t, ht, hstored, hother, hrest⟩

/-- Settles O33: the run of loads of V0 to Vx, each in memory or passed over. -/
theorem loadRegistersReadsV0ToVx : Obligations.LoadRegistersReadsV0ToVx := by
  intro x s
  obtain ⟨t, ht, hrest, -, hregs⟩ := execLdRegs_spec x s
  refine ⟨t, ht, fun k hk hin => ?_, fun k hout => ?_, fun a => by rw [hrest]; rfl, hrest⟩
  · rw [hregs, if_pos ⟨hk, hin⟩]
  · rw [hregs, if_neg fun ⟨hk, hin⟩ => Nat.not_lt.mpr hin (hout hk)]

/-- Settles O34: each of the four instructions records its accesses, and an instruction that makes none keeps
the record. -/
theorem accessesBeyondMemoryAreRecorded : Obligations.AccessesBeyondMemoryAreRecorded := by
  intro x y n s records
  have hrecords : ∀ {i count}, Accesses s i count → records i count := by
    intro i count hi
    obtain ⟨t, ht, hrest, -, haor⟩ := hi.exec_next
    exact ⟨t, ht, haor.2, haor.status_iff, by rw [hrest], by rw [hrest]⟩
  refine ⟨hrecords (.ldB x), hrecords (.stRegs x), hrecords (.ldRegs x), hrecords (.drw x y n),
    fun i t hnot hnotDrw h => ?_⟩
  obtain ⟨_, hi⟩ | hsame := exec_accesses_or_aor_same h
  · cases hi with
    | ldB x => exact absurd rfl (hnot x).1
    | stRegs x => exact absurd rfl (hnot x).2.1
    | ldRegs x => exact absurd rfl (hnot x).2.2
    | drw x y n => exact absurd rfl (hnotDrw x y n)
  · exact hsame

/-- Settles O30: the word sum is the sum of the numbers. -/
theorem fontAddressIsFiveBytesAGlyph : Obligations.FontAddressIsFiveBytesAGlyph := fun x s =>
  ⟨s.setI (zextAddr s.cfg.fontBase + 5 * zextByte (s.reg x)), rfl, fontAddress_toNat _ _, s.byteAt_setI _, rfl⟩

end

section
/-! The key wait of FX0A and the latches (spec/44_timers_input.md R175, R176, R179): the two ways a poll ends,
who writes the latches, what an Executor step in a wait does, and that every move keeps the latch invariant. -/

namespace Sys2Proof.Machine

variable {s t : State}

/-! ## Held and released keys -/

/-- KeyHeld asks for a key with that number: a value above 0x0F names none (R177). -/
theorem State.keyHeld_iff (s : State) (v : Byte) :
    s.keyHeld v = true ↔ ∃ k : Key, k.val = v.toNat ∧ s.held[k.val] = true := by
  unfold State.keyHeld
  split
  case isTrue h =>
    refine ⟨fun hheld => ⟨⟨v.toNat, h⟩, rfl, hheld⟩, ?_⟩
    rintro ⟨⟨k, hlt⟩, rfl, hheld⟩
    exact hheld
  case isFalse h =>
    refine ⟨fun hfalse => absurd hfalse Bool.false_ne_true, ?_⟩
    rintro ⟨k, hk, -⟩
    exact absurd (hk ▸ k.isLt) h

/-- Every latched key is held, so a poll reports none. -/
def State.latchedHeld (s : State) : Prop := ∀ k : Key, s.latch[k.val] = true → s.held[k.val] = true

theorem State.released_eq_true_iff {k : Key} :
    s.released k = true ↔ s.latch[k.val] = true ∧ s.held[k.val] = false := by
  simp [State.released, State.isHeld, and_comm]

theorem State.released_eq_false_iff {k : Key} :
    s.released k = false ↔ (s.latch[k.val] = true → s.held[k.val] = true) := by
  simp [State.released, State.isHeld, imp_iff_not_or, or_comm]

theorem State.releasedKey_eq_none_iff_latchedHeld : s.releasedKey = none ↔ s.latchedHeld :=
  State.releasedKey_eq_none.trans (forall_congr' fun _ => State.released_eq_false_iff)

/-- A poll that reports none latches the held keys. -/
theorem State.latchHeld_latch_iff (k : Key) :
    s.latchHeld.latch[k.val] = true ↔ s.latch[k.val] = true ∨ s.held[k.val] = true := by
  simp

/-- Every key it has latched is then held. -/
theorem State.latchedHeld.latchHeld (h : s.latchedHeld) : s.latchHeld.latchedHeld :=
  fun k hk => by
    rw [State.latchHeld_held]
    exact ((State.latchHeld_latch_iff k).mp hk).elim (h k) id

theorem noKeys_eq_false (k : Key) : noKeys[k.val] = false := by
  simp [noKeys]

/-! ## The two ways FX0A ends -/

theorem exec_ldVxK_release (x : RegIdx) {k : Key} (h : s.releasedKey = some k) :
    exec (.ldVxK x) s = .next (s.clearLatches.setReg x (BitVec.ofNat 8 k.val)) := by
  rw [exec, execLdVxK_eq, h]

theorem exec_ldVxK_repeat (x : RegIdx) (h : s.releasedKey = none) :
    exec (.ldVxK x) s = .next (s.latchHeld.setPc (s.pc - 2)) := by
  rw [exec, execLdVxK_eq, h]

/-- The number of a key fits the byte that reports it. -/
theorem key_ofNat_toNat (k : Key) : (BitVec.ofNat 8 k.val).toNat = k.val := by
  have hk := k.isLt
  rw [BitVec.toNat_ofNat]
  omega

/-! ## Who writes the latches -/

/-- No instruction but FX0A writes a latch (spec/10_state.md R33). -/
theorem exec_latch {i : Instr} (hi : ∀ x, i ≠ .ldVxK x) (h : exec i s = .next t) : t.latch = s.latch := by
  have hframe := exec_frame h
  cases i with
  | ldVxK x => exact absurd rfl (hi x)
  | ret | call => obtain ⟨-, hrest⟩ | ⟨-, hrest⟩ := hframe <;> exact (congrArg State.latch hrest :)
  | seImm | sneImm | seReg | sneReg | skp | sknp =>
    obtain hrest | hrest := hframe <;> exact (congrArg State.latch hrest :)
  | ldImm | addImm | ldReg | orReg | andReg | xorReg | ldVxDt | addReg | subReg | shrReg | subnReg | shlReg
  | rnd | addI | drw | ldRegs =>
    obtain ⟨hrest, -⟩ := hframe
    exact (congrArg State.latch hrest :)
  | _ => exact (congrArg State.latch hframe :)

/-- So an Executor step outside a key wait leaves the latches alone. -/
theorem executorStep_latch (hw : ¬ s.waiting) (h : executorStep s = .next t) : t.latch = s.latch := by
  obtain ⟨hrun, ⟨-, rfl⟩ | ⟨hpc, hexec⟩⟩ := executorStep_cases h
  · rfl
  · exact exec_latch (s := s.advance) (fun x hx => hw ⟨hrun, hpc, x, hx⟩) hexec

/-! ## An Executor step in a key wait -/

/-- Whether the machine waits depends on the status, pc, memory and the parameters alone. -/
theorem State.waiting_congr (hhalted : t.halted = s.halted) (hpc : t.pc = s.pc) (hmem : t.mem = s.mem)
    (hcfg : t.cfg = s.cfg) : t.waiting ↔ s.waiting := by
  simp only [State.waiting, State.fetched, State.wordAt, State.byteAt, hhalted, hpc, hmem, hcfg]

/-- A poll that latches the held keys leaves the machine in its wait. -/
theorem State.waiting.latchHeld (hw : s.waiting) : s.latchHeld.waiting :=
  (State.waiting_congr s.latchHeld_halted s.latchHeld_pc s.latchHeld_mem s.latchHeld_cfg).mpr hw

theorem State.waiting.executorStep_eq (hw : s.waiting) : ∃ x, executorStep s = exec (.ldVxK x) s.advance := by
  obtain ⟨hrun, hpc, x, hx⟩ := hw
  exact ⟨x, by rw [executorStep_run hrun hpc, hx]⟩

/-- With a key released the wait ends, its latches clear. -/
theorem State.waiting.executorStep_release (hw : s.waiting) {k : Key} (h : s.releasedKey = some k) :
    ∃ x, executorStep s = .next (s.advance.clearLatches.setReg x (BitVec.ofNat 8 k.val)) := by
  obtain ⟨x, hstep⟩ := hw.executorStep_eq
  exact ⟨x, hstep.trans (exec_ldVxK_release (s := s.advance) x h)⟩

/-- With none released the step goes back to the wait: pc is undone, and only the latches change. -/
theorem State.waiting.executorStep_repeat (hw : s.waiting) (h : s.releasedKey = none) :
    executorStep s = .next s.latchHeld := by
  obtain ⟨x, hstep⟩ := hw.executorStep_eq
  have hback : s.advance.pc - 2 = s.pc := BitVec.add_sub_cancel s.pc 2
  rw [hstep, exec_ldVxK_repeat (s := s.advance) x h, hback]
  rfl

/-! ## The latch invariant -/

theorem State.latchInv_of_clear (h : ∀ k : Key, s.latch[k.val] = false) : s.LatchInv :=
  fun ⟨k, hk⟩ => absurd ((h k).symm.trans hk) Bool.false_ne_true

/-- A wait goes on with the latches it has, or ends and clears them; outside a wait they are clear, and no
other instruction sets one. -/
theorem State.LatchInv.executorStep_next (hinv : s.LatchInv) (h : executorStep s = .next t) : t.LatchInv := by
  by_cases hw : s.waiting
  · cases hkey : s.releasedKey with
    | some k =>
      obtain ⟨x, hstep⟩ := hw.executorStep_release hkey
      obtain rfl := Host.Outcome.next.inj (hstep.symm.trans h)
      exact State.latchInv_of_clear noKeys_eq_false
    | none =>
      obtain rfl := Host.Outcome.next.inj ((hw.executorStep_repeat hkey).symm.trans h)
      exact fun _ => hw.latchHeld
  · refine State.latchInv_of_clear fun k => ?_
    rw [executorStep_latch hw h]
    exact Bool.eq_false_of_not_eq_true fun hk => hw (hinv ⟨k, hk⟩)

/-- Neither a tick nor new keys touch the latches or the wait. -/
theorem State.LatchInv.move (hinv : s.LatchInv) (hmove : Move s t) : t.LatchInv := by
  cases hmove with
  | executor h => exact hinv.executorStep_next h
  | tick => exact hinv
  | keys => exact hinv

theorem State.LatchInv.withSchedule (hinv : s.LatchInv) (turns : List Turn) :
    (s.withSchedule turns).LatchInv :=
  hinv

/-! ## A key wait through a schedule of turns -/

theorem runTurns_succ_of_step {k : Nat} (h : step s = .next t) : runTurns (k + 1) s = runTurns k t := by
  rw [runTurns, h]

/-- With every latched key held, an Executor turn or a tick uses itself up and leaves the machine so, in its
wait. -/
theorem State.waiting.step_next (hw : s.waiting) (hheld : s.latchedHeld) {turn : Turn}
    (hkeys : ∀ h, turn ≠ .keys h) (rest : List Turn) :
    ∃ t : State, step (s.withSchedule (turn :: rest)) = .next (t.withSchedule rest) ∧
      t.waiting ∧ t.latchedHeld ∧ t.pc = s.pc ∧ t.V = s.V := by
  cases turn with
  | executor =>
    have hnext : (s.withSchedule (.executor :: rest)).executorTurn rest := ⟨hw.1, .inr rfl⟩
    have hrepeat := hw.executorStep_repeat (State.releasedKey_eq_none_iff_latchedHeld.mpr hheld)
    have hturn := executorStep_withSchedule rest hrepeat
    exact ⟨s.latchHeld, (step_of_executorTurn hnext).trans hturn, hw.latchHeld, hheld.latchHeld,
      s.latchHeld_pc, s.latchHeld_V⟩
  | tick => exact ⟨s.tick, rfl, hw, hheld, rfl, rfl⟩
  | keys h => exact absurd rfl (hkeys h)

theorem State.waiting.runTurns_next (turns : List Turn) : ∀ {s : State}, s.waiting → s.latchedHeld →
    (∀ h, Turn.keys h ∉ turns) → ∃ t, runTurns turns.length (s.withSchedule turns) = .next t ∧
      t.waiting ∧ t.pc = s.pc ∧ t.V = s.V ∧ t.schedule = [] ∧ t.latchedHeld := by
  induction turns with
  | nil =>
    intro s hw hheld _
    exact ⟨s.withSchedule [], rfl, hw, rfl, rfl, rfl, hheld⟩
  | cons turn rest ih =>
    intro s hw hheld hkeys
    obtain ⟨u, hstep, huw, huheld, hupc, huV⟩ :=
      hw.step_next hheld (fun h e => hkeys h (e ▸ List.mem_cons_self)) rest
    obtain ⟨t, hrun, htw, htpc, htV, hsched, htheld⟩ :=
      ih huw huheld fun h hmem => hkeys h (List.mem_cons_of_mem turn hmem)
    exact ⟨t, (runTurns_succ_of_step hstep).trans hrun, htw, htpc.trans hupc, htV.trans huV, hsched, htheld⟩

end Sys2Proof.Machine
end

section
/-! A step as a move of one agent, what every move keeps, and the constructed machine, which meets both
invariants (spec/70_reset_and_hazards.md R230). -/

namespace Sys2Proof.Machine

/-! ## Steps and moves -/

/-- A step uses up the turn taken, and then is a move of one agent or passes a halted Executor over. -/
theorem step_move {s t : State} (h : step s = .next t) :
    Move (s.withSchedule s.schedule.tail) t ∨
      s.halted.isSome = true ∧ t = s.withSchedule s.schedule.tail := by
  obtain hexec | hpassed | rfl | ⟨held, rfl⟩ := step_cases h
  · exact .inl (.executor hexec)
  · exact .inr hpassed
  · exact .inl (.tick _)
  · exact .inl (.keys _ held)

/-- What every move keeps, every run keeps. -/
theorem Moves.keeps {P : State → Prop} (hmove : ∀ {s t}, P s → Move s t → P t) {s t : State} (h : Moves s t)
    (hs : P s) : P t := by
  induction h with
  | refl => exact hs
  | snoc _ hm ih => exact hmove ih hm

/-! ## The constructed machine -/

/-- A program that is not refused fits above PROGRAM_BASE, and the machine is reset but for the parameters and
what they fix. -/
theorem construct_eq_some {cfg : Config} {program : List Byte} {s : State}
    (h : State.construct cfg program = some s) :
    cfg.programBase.toNat + program.length ≤ Config.memSize ∧
      s = { State.reset with
        pc := zextAddr cfg.programBase, stack := List.replicate cfg.stackCapacity 0,
        mem := loadedMemory cfg program, cfg := cfg } := by
  have hbase := cfg.programBase.isLt
  unfold State.construct at h
  split at h
  case isTrue => cases h
  case isFalse hroom =>
    unfold programRoom Config.memSize at hroom
    exact ⟨by unfold Config.memSize; omega, (Option.some.inj h).symm⟩

theorem Config.font_fits {cfg : Config} (h : cfg.wf = true) :
    cfg.fontBase.toNat + cfg.fontTable.length ≤ Config.memSize := by
  simp only [Config.wf, Bool.and_eq_true, decide_eq_true_eq] at h
  obtain ⟨⟨-, hlen⟩, hfits⟩ := h
  rw [hlen]
  exact hfits

theorem loadedMemory_wf {cfg : Config} {program : List Byte} (hcfg : cfg.wf = true)
    (hfits : cfg.programBase.toNat + program.length ≤ Config.memSize) : (loadedMemory cfg program).wf = true :=
  Memory.writeBytes_wf _ (Memory.writeBytes_wf _ zeroMemory_wf (Config.font_fits hcfg)) hfits

theorem construct_inv {cfg : Config} {program : List Byte} {s : State} (hcfg : cfg.wf = true)
    (h : State.construct cfg program = some s) : s.Inv := by
  obtain ⟨hfits, rfl⟩ := construct_eq_some h
  exact {
    mem_wf := loadedMemory_wf hcfg hfits
    stack_length := List.length_replicate
    sp_le := Nat.zero_le _
    pc_le := (zextAddr_toNat_le _).trans (by decide)
    slot_le := fun a ha => by rw [List.eq_of_mem_replicate ha]; decide
    index_le := Nat.zero_le _
    aor_iff := ⟨fun haor => absurd haor Bool.false_ne_true, fun hlog => absurd rfl hlog⟩
    aor_range := fun a ha => absurd ha List.not_mem_nil
    halted_pc := fun hhalted => absurd hhalted Bool.false_ne_true }

theorem construct_latchInv {cfg : Config} {program : List Byte} {s : State}
    (h : State.construct cfg program = some s) : s.LatchInv := by
  obtain ⟨-, rfl⟩ := construct_eq_some h
  exact State.latchInv_of_clear noKeys_eq_false

end Sys2Proof.Machine
end

section
/-! The statements of spec/44_timers_input.md, and the two invariants over every run. -/

open Sys2Proof Sys2Proof.Machine

/-- Settles O50: every move keeps the latch invariant, which does not speak of the schedule. -/
theorem latchesAreClearOutsideAKeyWait : Obligations.LatchesAreClearOutsideAKeyWait := by
  intro s t hinv h
  have hturn := hinv.withSchedule s.schedule.tail
  obtain hmove | ⟨-, rfl⟩ := step_move h
  · exact hturn.move hmove
  · exact hturn

/-- Settles O22: EX9E tests KeyHeld of Vx, EXA1 the opposite. -/
theorem keySkipsQueryTheHeldKeys : Obligations.KeySkipsQueryTheHeldKeys := by
  intro x
  refine ⟨skipsWhen_of_skipIf (fun _ => rfl) fun s => s.keyHeld_iff _,
    skipsWhen_of_skipIf (fun _ => rfl) fun s => ?_⟩
  rw [Bool.not_eq_true', ← Bool.not_eq_true, s.keyHeld_iff]
  simp only [not_exists, not_and, Bool.not_eq_true]

/-- Settles O41: the key is the one a poll reports, since no lower latched key is released. -/
theorem keyWaitReportsTheLowestReleasedKey : Obligations.KeyWaitReportsTheLowestReleasedKey := by
  intro x s k hlatch hheld hlower
  have hkey : s.releasedKey = some k := State.releasedKey_eq_some.mpr
    ⟨State.released_eq_true_iff.mpr ⟨hlatch, hheld⟩, fun j hj => State.released_eq_false_iff.mpr (hlower j hj)⟩
  refine ⟨_, exec_ldVxK_release x hkey, ?_, noKeys_eq_false, fun y hy => s.clearLatches.reg_setReg_ne hy _,
    fun _ => rfl, rfl⟩
  rw [State.reg_setReg_self, key_ofNat_toNat]

/-- Settles O43: each turn leaves the machine in the wait with every latched key held. -/
theorem keyWaitLastsWhileKeysAreSteady : Obligations.KeyWaitLastsWhileKeysAreSteady :=
  fun _ turns hw hheld hkeys => State.waiting.runTurns_next turns hw hheld hkeys

/-- Settles O53: the constructed machine meets both invariants, and every move keeps each. -/
theorem everyRunOfALoadedProgramIsSafe : Obligations.EveryRunOfALoadedProgramIsSafe :=
  fun _ _ _ _ hcfg hload hmoves =>
    ⟨hmoves.keeps State.Inv.move (construct_inv hcfg hload),
      hmoves.keeps State.LatchInv.move (construct_latchInv hload)⟩

/-- Settles O28: FX07 is one write of Vx, FX15 and FX18 one write of a timer. -/
theorem timerInstructionsCopyBetweenVxAndTimers : Obligations.TimerInstructionsCopyBetweenVxAndTimers :=
  fun _ => ⟨writesReg_of_setReg fun _ => rfl, fun _ => ⟨_, rfl, rfl, fun _ => rfl, rfl⟩,
    fun _ => ⟨_, rfl, rfl, fun _ => rfl, rfl⟩⟩

/-- Settles O42: with every latched key held a poll reports none. -/
theorem keyWaitRepeatsUntilARelease : Obligations.KeyWaitRepeatsUntilARelease := by
  intro x s hheld
  have hnone : s.releasedKey = none := State.releasedKey_eq_none_iff_latchedHeld.mpr hheld
  refine ⟨_, exec_ldVxK_repeat x hnone, rfl, State.latchHeld_latch_iff, fun a => ?_, ?_⟩
  · rw [State.byteAt_setPc, State.byteAt_latchHeld]
  · simp only [State.setPc, State.latchHeld]

end

section
/-! The Timer Ticker's turn (spec/60_exceptions.md R210): what a tick makes of a timer, and the step that
takes it. -/

namespace Sys2Proof.Machine

/-- Subtraction on `Nat` stops at 0, as a timer does. -/
theorem tickTimer_toNat (v : Byte) : (tickTimer v).toNat = v.toNat - 1 := by
  unfold tickTimer
  split
  case isTrue hzero => rw [hzero]; rfl
  case isFalse hpos => exact BitVec.toNat_sub_of_le (by bv_omega)

/-- A tick at the head of the schedule is taken whatever the Executor's state, halted or not. -/
theorem step_of_tick {s : State} {rest : List Turn} (h : s.schedule = .tick :: rest) :
    step s = .next (s.withSchedule rest).tick := by
  unfold step takeTurn
  rw [h]
  rfl

end Sys2Proof.Machine
end

section
/-! The Timer Ticker's obligation (spec/60_exceptions.md R210). -/

open Sys2Proof Sys2Proof.Machine

/-- Settles O11: the step is one tick of the state whose schedule has lost the turn. -/
theorem tickDecrementsEachTimerTowardZero : Obligations.TickDecrementsEachTimerTowardZero := fun s _ h =>
  ⟨_, step_of_tick h, tickTimer_toNat s.DT, tickTimer_toNat s.ST, rfl⟩

end

section
/-! Encoder and decoder undo each other, family by family (spec/30_encoding.md R73, R75, R77). -/

namespace Sys2Proof.Machine

/-! ## Decoding an encoded word -/

/-- A word is determined by its family and address, so the whole-word matches of CLS and RET take only the
words of their own addresses. -/
theorem decode0_formatA {nnn : Addr} (h : known0.contains nnn = false) : decode0 (formatA 0x0 nnn) = .sys nnn := by
  have hne {a : Addr} (ha : known0.contains a = true) : formatA 0x0 nnn ≠ formatA 0x0 a := fun he => by
    rw [← fieldNNN_formatA 0x0 nnn, he, fieldNNN_formatA, ha] at h
    cases h
  have hcls : formatA 0x0 nnn ≠ 0x00E0 := hne (a := 0x0E0) rfl
  have hret : formatA 0x0 nnn ≠ 0x00EE := hne (a := 0x0EE) rfl
  rw [decode0, if_neg hcls, if_neg hret, fieldNNN_formatA]

/-- A well-formed instruction is what the decoder makes of its word: the operands are the word's fields, and a
fallback row has a selector that no row above it takes (R78). -/
theorem decodeWord_encode {strict : Bool} {i : Instr} (h : i.wf strict = true) :
    decodeWord strict (encode i) = i := by
  cases i with
  | cls | ret => rfl
  | sys nnn =>
    rw [encode, decodeWord_family0 strict (fieldF_formatA _ _)]
    exact decode0_formatA (Bool.not_eq_true' _ ▸ h)
  | nopE x nn =>
    rw [encode, decodeWord_familyE strict (fieldF_formatI _ _ _), fieldX_formatI, fieldNN_formatI]
    exact decodeE_unknown x (Bool.not_eq_true' _ ▸ h)
  | nopF x nn =>
    rw [encode, decodeWord_familyF strict (fieldF_formatI _ _ _), fieldX_formatI, fieldNN_formatI]
    exact decodeF_unknown x (Bool.not_eq_true' _ ▸ h)
  | seReg x y n | nop5XYN x y n =>
    cases strict <;> simp_all [encode, decodeWord, decode5, Instr.wf]
  | sneReg x y n | nop9XYN x y n =>
    cases strict <;> simp_all [encode, decodeWord, decode9, Instr.wf]
  | jp | call | ldI | jpOff | seImm | sneImm | ldImm | addImm | rnd | drw => simp [encode, decodeWord]
  | ldReg | orReg | andReg | xorReg | addReg | subReg | shrReg | subnReg | shlReg
  | nop8XY8 | nop8XY9 | nop8XYA | nop8XYB | nop8XYC | nop8XYD | nop8XYF =>
    simp [encode, decodeWord, decode8]
  | skp | sknp => simp [encode, decodeWord, decodeE]
  | ldVxDt | ldVxK | ldDtVx | ldStVx | addI | ldF | ldB | stRegs | ldRegs => simp [encode, decodeWord, decodeF]

/-! ## Encoding a decoded word -/

theorem encode_decode0 {w : Word} (h : fieldF w = 0x0) : encode (decode0 w) = w := by
  unfold decode0
  split
  case isTrue hcls => exact hcls.symm
  case isFalse =>
    split
    case isTrue hret => exact hret.symm
    case isFalse => rw [encode, ← h, formatA_fields]

theorem encode_decode5 (strict : Bool) (x y : RegIdx) (n : Nibble) :
    encode (decode5 strict x y n) = formatR 0x5 x y n := by
  unfold decode5
  split <;> rfl

theorem encode_decode9 (strict : Bool) (x y : RegIdx) (n : Nibble) :
    encode (decode9 strict x y n) = formatR 0x9 x y n := by
  unfold decode9
  split <;> rfl

/-- The sixteen low nibbles have a row each. -/
theorem encode_decode8 (x y : RegIdx) (n : Nibble) : encode (decode8 x y n) = formatR 0x8 x y n := by
  obtain ⟨k, hk⟩ := n
  interval_cases k <;> rfl

theorem encode_decodeE (x : RegIdx) (nn : Byte) : encode (decodeE x nn) = formatI 0xE x nn := by
  unfold decodeE
  split <;> rfl

theorem encode_decodeF (x : RegIdx) (nn : Byte) : encode (decodeF x nn) = formatI 0xF x nn := by
  unfold decodeF
  split <;> rfl

theorem encode_decodeWord_wholeFamily (strict : Bool) {w : Word} (h : fieldF w ∈ wholeFamilies) :
    encode (decodeWord strict w) = w := by
  have hA := formatA_fields w
  have hI := formatI_fields w
  have hR := formatR_fields w
  simp only [wholeFamilies, List.mem_cons, List.not_mem_nil, or_false] at h
  rcases h with h | h | h | h | h | h | h | h | h | h <;> rw [h] at hA hI hR <;>
    simpa [decodeWord, h, encode]

theorem encode_decodeWord (strict : Bool) (w : Word) : encode (decodeWord strict w) = w := by
  obtain h | h | h | h | h | h | h := family_cases (fieldF w)
  · exact encode_decodeWord_wholeFamily strict h
  · rw [decodeWord_family0 strict h, encode_decode0 h]
  · rw [decodeWord_family5 strict h, encode_decode5, ← h, formatR_fields]
  · rw [decodeWord_family8 strict h, encode_decode8, ← h, formatR_fields]
  · rw [decodeWord_family9 strict h, encode_decode9, ← h, formatR_fields]
  · rw [decodeWord_familyE strict h, encode_decodeE, ← h, formatI_fields]
  · rw [decodeWord_familyF strict h, encode_decodeF, ← h, formatI_fields]

end Sys2Proof.Machine
end

section
/-! The statements of spec/30_encoding.md on encoding: sections 2 to 4. -/

open Sys2Proof Sys2Proof.Machine

/-- Settles O1: every operand is read back from its field of the word, and each fallback row's words pass the
rows above it. -/
theorem decodeInvertsEncode : Obligations.DecodeInvertsEncode := fun _ _ h => decodeWord_encode h

/-- Settles O2: each family's decoder keeps every field that its encoding writes. -/
theorem encodeInvertsDecode : Obligations.EncodeInvertsDecode := encode_decodeWord

/-- Settles O5: the decoder runs on each of the words. -/
theorem wordsOfTheSpecDecode : Obligations.WordsOfTheSpecDecode :=
  ⟨rfl, rfl, rfl, rfl, rfl, rfl, rfl, rfl⟩

end

section
/-! The fields an instruction may write, said once for all instructions, and who writes each of them
(spec/10_state.md, spec/60_exceptions.md section 1). -/

namespace Sys2Proof.Machine

variable {i : Instr} {s t : State}

/-! ## Footprints -/

/-- `s` with the fields that `i` may write taken from `t`. -/
def footprint (i : Instr) (s t : State) : State :=
  match i with
  | .cls => { s with fb := t.fb }
  | .ret => { s with pc := t.pc, sp := t.sp, halted := t.halted, faultPc := t.faultPc }
  | .call _ => { s with pc := t.pc, stack := t.stack, sp := t.sp, halted := t.halted, faultPc := t.faultPc }
  | .jp _ | .jpOff _ | .seImm _ _ | .sneImm _ _ | .seReg _ _ _ | .sneReg _ _ _ | .skp _ | .sknp _ =>
      { s with pc := t.pc }
  | .ldImm _ _ | .addImm _ _ | .ldReg _ _ | .orReg _ _ | .andReg _ _ | .xorReg _ _ | .addReg _ _
  | .subReg _ _ | .shrReg _ _ | .subnReg _ _ | .shlReg _ _ | .ldVxDt _ => { s with V := t.V }
  | .rnd _ _ => { s with V := t.V, draws := t.draws }
  | .ldI _ | .ldF _ => { s with I := t.I }
  | .addI _ => { s with I := t.I, V := t.V }
  | .drw _ _ _ => { s with V := t.V, fb := t.fb, aor := t.aor, aorLog := t.aorLog }
  | .ldB _ | .stRegs _ => { s with mem := t.mem, aor := t.aor, aorLog := t.aorLog }
  | .ldRegs _ => { s with V := t.V, aor := t.aor, aorLog := t.aorLog }
  | .ldVxK _ => { s with V := t.V, pc := t.pc, latch := t.latch }
  | .ldDtVx _ => { s with DT := t.DT }
  | .ldStVx _ => { s with ST := t.ST }
  | .sys _ | .nopE _ _ | .nopF _ _ | .nop5XYN _ _ _ | .nop9XYN _ _ _ | .nop8XY8 _ _ | .nop8XY9 _ _
  | .nop8XYA _ _ | .nop8XYB _ _ | .nop8XYC _ _ | .nop8XYD _ _ | .nop8XYF _ _ => s

/-- Whatever else the frame says of the values, only the fields of the footprint differ. -/
theorem exec_footprint (h : exec i s = .next t) : t = footprint i s t := by
  have hframe := exec_frame h
  cases i with
  | ret | call =>
    obtain ⟨-, hrest⟩ | ⟨-, hrest⟩ := hframe <;> rw [hrest] <;> rfl
  | seImm | sneImm | seReg | sneReg | skp | sknp =>
    obtain hrest | hrest := hframe <;> rw [hrest] <;> rfl
  | ldVxK => obtain ⟨hrest, -⟩ | hrest := hframe <;> rw [hrest] <;> rfl
  | ldImm | addImm | ldReg | orReg | andReg | xorReg | ldVxDt | addReg | subReg | shrReg | subnReg | shlReg
  | drw | ldRegs =>
    exact hframe.1
  | rnd | addI =>
    obtain ⟨hrest, -⟩ := hframe
    rw [hrest]
    rfl
  | _ => rw [hframe]; rfl

/-! ## The writers of each field -/

theorem exec_writes_I (h : exec i s = .next t) (hne : t.I ≠ s.I) :
    ∃ x nnn, i = .ldI nnn ∨ i = .addI x ∨ i = .ldF x := by
  have hfoot := exec_footprint h
  cases i with
  | ldI nnn => exact ⟨0, nnn, .inl rfl⟩
  | addI x => exact ⟨x, 0, .inr (.inl rfl)⟩
  | ldF x => exact ⟨x, 0, .inr (.inr rfl)⟩
  | _ => exact absurd (congrArg State.I hfoot :) hne

theorem exec_writes_stack (h : exec i s = .next t) (hne : t.stack ≠ s.stack ∨ t.sp ≠ s.sp) :
    i = .ret ∨ ∃ nnn, i = .call nnn := by
  have hfoot := exec_footprint h
  cases i with
  | ret => exact .inl rfl
  | call nnn => exact .inr ⟨nnn, rfl⟩
  | _ =>
    obtain hstack | hsp := hne
    · exact absurd (congrArg State.stack hfoot :) hstack
    · exact absurd (congrArg State.sp hfoot :) hsp

theorem exec_writes_mem (h : exec i s = .next t) (hne : t.mem ≠ s.mem) : ∃ x, i = .ldB x ∨ i = .stRegs x := by
  have hfoot := exec_footprint h
  cases i with
  | ldB x => exact ⟨x, .inl rfl⟩
  | stRegs x => exact ⟨x, .inr rfl⟩
  | _ => exact absurd (congrArg State.mem hfoot :) hne

theorem exec_writes_DT (h : exec i s = .next t) (hne : t.DT ≠ s.DT) : ∃ x, i = .ldDtVx x := by
  have hfoot := exec_footprint h
  cases i with
  | ldDtVx x => exact ⟨x, rfl⟩
  | _ => exact absurd (congrArg State.DT hfoot :) hne

theorem exec_writes_ST (h : exec i s = .next t) (hne : t.ST ≠ s.ST) : ∃ x, i = .ldStVx x := by
  have hfoot := exec_footprint h
  cases i with
  | ldStVx x => exact ⟨x, rfl⟩
  | _ => exact absurd (congrArg State.ST hfoot :) hne

theorem exec_writes_latch (h : exec i s = .next t) (hne : t.latch ≠ s.latch) : ∃ x, i = .ldVxK x := by
  by_contra hi
  exact hne (exec_latch (not_exists.mp hi) h)

theorem exec_writes_pc (h : exec i s = .next t) (hne : t.pc ≠ s.pc) :
    i = .ret ∨ ∃ x y nn nnn n, i = .jp nnn ∨ i = .call nnn ∨ i = .jpOff nnn ∨ i = .seImm x nn ∨
      i = .sneImm x nn ∨ i = .seReg x y n ∨ i = .sneReg x y n ∨ i = .skp x ∨ i = .sknp x ∨ i = .ldVxK x := by
  have hfoot := exec_footprint h
  cases i with
  | ret => exact .inl rfl
  | jp nnn | call nnn | jpOff nnn => exact .inr ⟨0, 0, 0, nnn, 0, by simp⟩
  | seImm x nn | sneImm x nn => exact .inr ⟨x, 0, nn, 0, 0, by simp⟩
  | seReg x y n | sneReg x y n => exact .inr ⟨x, y, 0, 0, n, by simp⟩
  | skp x | sknp x | ldVxK x => exact .inr ⟨x, 0, 0, 0, 0, by simp⟩
  | _ => exact absurd (congrArg State.pc hfoot :) hne

/-- The key input, the schedule and the parameters are no instruction's to write. -/
theorem exec_inputs (h : exec i s = .next t) : t.held = s.held ∧ t.schedule = s.schedule ∧ t.cfg = s.cfg := by
  rw [exec_footprint h]
  cases i <;> exact ⟨rfl, rfl, rfl⟩

/-! ## VF -/

/-- Where a single register may change, it is the one that did. -/
theorem SameRegsBut.eq_of_reg_ne {x y : RegIdx} (h : SameRegsBut x s t) (hne : t.reg y ≠ s.reg y) : x = y :=
  by_contra fun hxy => hne (h y (Ne.symm hxy))

theorem exec_writes_vF (h : exec i s = .next t) (hne : t.reg vF ≠ s.reg vF) :
    (∃ x y n, i = .addReg x y ∨ i = .subReg x y ∨ i = .shrReg x y ∨ i = .subnReg x y ∨ i = .shlReg x y ∨
      i = .drw x y n ∨ i = .addI x) ∨
    (∃ y nn, i = .ldImm vF nn ∨ i = .addImm vF nn ∨ i = .ldReg vF y ∨ i = .orReg vF y ∨ i = .andReg vF y ∨
      i = .xorReg vF y ∨ i = .rnd vF nn ∨ i = .ldVxDt vF ∨ i = .ldVxK vF ∨ i = .ldRegs vF) := by
  have hframe := exec_frame h
  have hfoot := exec_footprint h
  cases i with
  | addReg x y | subReg x y | shrReg x y | subnReg x y | shlReg x y => exact .inl ⟨x, y, 0, by simp⟩
  | drw x y n => exact .inl ⟨x, y, n, by simp⟩
  | addI x => exact .inl ⟨x, 0, 0, by simp⟩
  | ldImm x nn | addImm x nn | rnd x nn =>
    obtain rfl := hframe.2.eq_of_reg_ne hne
    exact .inr ⟨0, nn, by simp⟩
  | ldReg x y | orReg x y | andReg x y | xorReg x y =>
    obtain rfl := hframe.2.eq_of_reg_ne hne
    exact .inr ⟨y, 0, by simp⟩
  | ldVxDt x =>
    obtain rfl := hframe.2.eq_of_reg_ne hne
    exact .inr ⟨0, 0, by simp⟩
  | ldVxK x =>
    obtain ⟨-, hregs⟩ | hwait := hframe
    · obtain rfl := hregs.eq_of_reg_ne hne
      exact .inr ⟨0, 0, by simp⟩
    · exact absurd (congrArg (State.reg · vF) hwait :) hne
  | ldRegs x =>
    obtain rfl : x = vF := by
      by_contra hx
      exact hne (hframe.2 vF (lt_of_le_of_ne (Fin.le_last x) hx))
    exact .inr ⟨0, 0, by simp⟩
  | _ => exact absurd (congrArg (State.reg · vF) hfoot :) hne

/-! ## Fatal conditions, and completion -/

/-- 00EE and 2NNN alone may halt the machine, where the stack is empty and where it is full (R203). -/
theorem exec_halts (hrun : s.halted = none) (h : exec i s = .next t) (hhalt : t.halted ≠ none) :
    (i = .ret ∧ s.sp = 0 ∧ t = s.raiseFatal .stackUnderflow s.instrAddr) ∨
      ∃ nnn, i = .call nnn ∧ s.sp = s.cfg.stackCapacity ∧ t = s.raiseFatal .stackOverflow s.instrAddr := by
  have hframe := exec_frame h
  have hfoot := exec_footprint h
  cases i with
  | ret =>
    obtain ⟨hsp, hfatal⟩ | ⟨-, hpop⟩ := hframe
    · exact .inl ⟨rfl, hsp, hfatal⟩
    · exact absurd ((congrArg State.halted hpop :).trans hrun) hhalt
  | call nnn =>
    obtain ⟨hsp, hfatal⟩ | ⟨-, hpush⟩ := hframe
    · exact .inr ⟨nnn, rfl, hsp, hfatal⟩
    · exact absurd ((congrArg State.halted hpush :).trans hrun) hhalt
  | _ => exact absurd ((congrArg State.halted hfoot :).trans hrun) hhalt

/-- No meaning is refused and none is a fault (R201, R205). -/
theorem exec_completes (i : Instr) (s : State) : ∃ t, exec i s = .next t := by
  cases i with
  | ret => exact ⟨_, execRet_eq s⟩
  | call nnn => exact ⟨_, execCall_eq nnn s⟩
  | ldVxK x => exact ⟨_, execLdVxK_eq x s⟩
  | _ => exact ⟨_, rfl⟩

end Sys2Proof.Machine
end

section
/-! The statements about which instruction writes what (spec/10_state.md, spec/60_exceptions.md section 1). -/

open Sys2Proof Sys2Proof.Machine

/-- Settles O45: every other instruction leaves the field out of its footprint. -/
theorem eachResourceHasItsWriters : Obligations.EachResourceHasItsWriters := fun _ _ _ h =>
  ⟨exec_writes_I h, exec_writes_stack h, exec_writes_mem h, exec_writes_DT h, exec_writes_ST h,
    exec_writes_latch h, exec_inputs h⟩

/-- Settles O46: every other instruction leaves pc out of its footprint. -/
theorem onlyControlFlowMovesPc : Obligations.OnlyControlFlowMovesPc := fun _ _ _ => exec_writes_pc

/-- Settles O47: an instruction that writes one register changes VF only where VF is that register. -/
theorem flagIsWrittenOnlyByTheListedInstructions : Obligations.FlagIsWrittenOnlyByTheListedInstructions :=
  fun _ _ _ => exec_writes_vF

/-- Settles O27: the halt is 00EE's or 2NNN's, and the state is then `s` with the fatal condition raised. -/
theorem onlyCallAndReturnRaiseAFatalCondition : Obligations.OnlyCallAndReturnRaiseAFatalCondition := by
  intro i s t hrun h hhalt
  obtain ⟨hi, hsp, rfl⟩ | ⟨nnn, hi, hsp, rfl⟩ := exec_halts hrun h hhalt
  · exact ⟨.inl ⟨hi, hsp, rfl⟩, rfl⟩
  · exact ⟨.inr ⟨nnn, hi, hsp, rfl⟩, rfl⟩

/-- Settles O44: only the outcomes of 00EE, 2NNN and FX0A branch, and each branch is a next state. -/
theorem everyInstructionAnswersANextState : Obligations.EveryInstructionAnswersANextState := exec_completes

end

section
/-! What a turn does: the Executor's turn runs the word at pc or halts, a halted machine passes it over, every
scheduled turn is taken, and runs of turns and moves of agents are the same (spec/30_encoding.md R76,
spec/60_exceptions.md R201, R202, R211). -/

namespace Sys2Proof.Machine

variable {s t : State}

/-! ## The Executor's turn -/

/-- The word fetched at pc is the one with these two bytes, the first the high one (R76). -/
theorem State.fetched_of_bytes {w : Word}
    (h : w.toNat = 256 * (s.byteAt s.pc.toNat).toNat + (s.byteAt (s.pc.toNat + 1)).toNat) :
    s.fetched = decodeWord s.cfg.strict59 w := by
  have hword : s.wordAt s.pc.toNat = w := BitVec.eq_of_toNat_eq ((joinBytes_toNat _ _).trans h.symm)
  rw [State.fetched, hword]

theorem step_fatal {rest : List Turn} (h : s.executorTurn rest) (hp : lastFetch < s.pc.toNat) :
    step s = .next ((s.withSchedule rest).raiseFatal .pcOutOfBounds s.pc) := by
  rw [step_of_executorTurn h]
  exact executorStep_fatal (s := s.withSchedule rest) h.1 hp

/-- A halted machine passes the Executor's turn over (R218). -/
theorem step_passes {rest : List Turn} (hhalt : s.halted.isSome = true) (h : s.schedule = .executor :: rest) :
    step s = .next (s.withSchedule rest) := by
  simp [step, takeTurn, h, hhalt, State.withSchedule]

/-- A running Executor always has a step (R205). -/
theorem executorStep_completes (h : s.halted = none) : ∃ t, executorStep s = .next t := by
  by_cases hp : lastFetch < s.pc.toNat
  · exact ⟨_, executorStep_fatal h hp⟩
  · rw [executorStep_run h (Nat.le_of_not_lt hp)]
    exact exec_completes _ _

/-! ## What moves leave alone -/

theorem executorStep_inputs (h : executorStep s = .next t) :
    t.held = s.held ∧ t.schedule = s.schedule ∧ t.cfg = s.cfg := by
  obtain ⟨-, ⟨-, rfl⟩ | ⟨-, hexec⟩⟩ := executorStep_cases h
  · exact ⟨rfl, rfl, rfl⟩
  · exact exec_inputs (s := s.advance) hexec

/-- A move takes nothing from the schedule: only `step` does. -/
theorem Move.schedule_cfg (m : Move s t) : t.schedule = s.schedule ∧ t.cfg = s.cfg := by
  cases m with
  | executor h => exact (executorStep_inputs h).2
  | tick => exact ⟨rfl, rfl⟩
  | keys => exact ⟨rfl, rfl⟩

theorem Moves.schedule_cfg (h : Moves s t) : t.schedule = s.schedule ∧ t.cfg = s.cfg :=
  h.keeps (P := fun u => u.schedule = s.schedule ∧ u.cfg = s.cfg)
    (fun hu m => ⟨m.schedule_cfg.1.trans hu.1, m.schedule_cfg.2.trans hu.2⟩) ⟨rfl, rfl⟩

theorem step_schedule (h : step s = .next t) : t.schedule = s.schedule.tail := by
  obtain hmove | ⟨-, rfl⟩ := step_move h
  · exact hmove.schedule_cfg.1
  · rfl

/-! ## Runs of turns -/

theorem withSchedule_of_schedule {turns : List Turn} (h : s.schedule = turns) : s.withSchedule turns = s := by
  rw [← h]
  rfl

theorem runTurns_add {m : Nat} (n : Nat) : ∀ {s : State}, runTurns m s = .next t →
    runTurns (m + n) s = runTurns n t := by
  induction m with
  | zero =>
    intro s h
    obtain rfl := Host.Outcome.next.inj h
    rw [Nat.zero_add]
  | succ m ih =>
    intro s h
    rw [Nat.add_right_comm, runTurns]
    rw [runTurns] at h
    cases hstep : step s with
    | next u =>
      rw [hstep] at h
      exact ih h
    | fault f => rw [hstep] at h; cases h
    | refused r => rw [hstep] at h; cases h

/-- A move is the step of some turn, whatever is scheduled after it. -/
theorem Move.exists_turn (m : Move s t) :
    ∃ turn, ∀ rest, step (s.withSchedule (turn :: rest)) = .next (t.withSchedule rest) := by
  cases m with
  | executor h =>
    refine ⟨.executor, fun rest => ?_⟩
    have hturn : (s.withSchedule (.executor :: rest)).executorTurn rest := ⟨(executorStep_cases h).1, .inr rfl⟩
    have hstep := executorStep_withSchedule rest h
    exact (step_of_executorTurn hturn).trans hstep
  | tick => exact ⟨.tick, fun _ => rfl⟩
  | keys held => exact ⟨.keys held, fun _ => rfl⟩

/-- Moves are the run of some turns, whatever is scheduled after them: the last move's turn is put behind the
turns of those before it. -/
theorem Moves.exists_turns (h : Moves s t) : ∃ turns : List Turn, ∀ rest,
    runTurns turns.length (s.withSchedule (turns ++ rest)) = .next (t.withSchedule rest) := by
  induction h with
  | refl => exact ⟨[], fun _ => rfl⟩
  | snoc _ m ih =>
    obtain ⟨turns, hrun⟩ := ih
    obtain ⟨turn, hstep⟩ := m.exists_turn
    refine ⟨turns ++ [turn], fun rest => ?_⟩
    rw [List.length_append, List.append_assoc, runTurns_add _ (hrun _)]
    exact runTurns_succ_of_step (hstep rest)

/-! ## A scheduled turn is always taken -/

/-- Whichever turn is next, and halted or not, the step that takes it answers a next state. -/
theorem step_scheduled {turn : Turn} {rest : List Turn} (h : s.schedule = turn :: rest) :
    ∃ t, step s = .next t ∧ t.schedule = rest ∧ t.cfg = s.cfg ∧ ((∀ k, turn ≠ .keys k) → t.held = s.held) := by
  cases turn with
  | executor =>
    by_cases hhalt : s.halted.isSome = true
    · exact ⟨_, step_passes hhalt h, rfl, rfl, fun _ => rfl⟩
    · have hrun : s.halted = none := Option.not_isSome_iff_eq_none.mp hhalt
      obtain ⟨t, ht⟩ := executorStep_completes (s := s.withSchedule rest) hrun
      obtain ⟨hheld, hsched, hcfg⟩ := executorStep_inputs ht
      exact ⟨t, (step_of_executorTurn ⟨hrun, .inr h⟩).trans ht, hsched, hcfg, fun _ => hheld⟩
  | tick => exact ⟨_, step_of_tick h, rfl, rfl, fun _ => rfl⟩
  | keys k =>
    have hstep : step s = .next ((s.withSchedule rest).setKeys k) := by
      rw [step, takeTurn, h]
      rfl
    exact ⟨_, hstep, rfl, rfl, fun hne => absurd rfl (hne k)⟩

/-- So a schedule runs to its end; with no turn of the host in it the keys stay as they are. -/
theorem runTurns_scheduled (turns : List Turn) : ∀ {s : State}, s.schedule = turns →
    ∃ t, runTurns turns.length s = .next t ∧ t.schedule = [] ∧ t.cfg = s.cfg ∧
      ((∀ k, Turn.keys k ∉ turns) → t.held = s.held) := by
  induction turns with
  | nil => exact fun {s} h => ⟨s, rfl, h, rfl, fun _ => rfl⟩
  | cons turn rest ih =>
    intro s h
    obtain ⟨u, hstep, husched, hucfg, huheld⟩ := step_scheduled h
    obtain ⟨t, hrun, hsched, hcfg, hheld⟩ := ih husched
    refine ⟨t, (runTurns_succ_of_step hstep).trans hrun, hsched, hcfg.trans hucfg, fun hkeys => ?_⟩
    rw [hheld fun k hk => hkeys k (List.mem_cons_of_mem _ hk)]
    exact huheld fun k hk => hkeys k (hk ▸ List.mem_cons_self)

end Sys2Proof.Machine
end

section
/-! The statements about turns, moves and the halted Executor (spec/30_encoding.md section 3,
spec/60_exceptions.md sections 1, 3 and 6). -/

open Sys2Proof Sys2Proof.Machine

/-- Settles O57: a move leaves the schedule alone, so a step's is the one that has lost its first turn. -/
theorem everyStepIsAMoveOfOneAgent : Obligations.EveryStepIsAMoveOfOneAgent := fun _ _ h =>
  ⟨step_schedule h, step_move h⟩

/-- Settles O56: with nothing scheduled after the moves' turns, the run ends in the moves' own last state. -/
theorem scheduleRealisesEveryInterleaving : Obligations.ScheduleRealisesEveryInterleaving := by
  intro s u hempty hmoves
  obtain ⟨turns, hrun⟩ := hmoves.exists_turns
  have hlast : u.withSchedule [] = u := withSchedule_of_schedule (hmoves.schedule_cfg.1.trans hempty)
  have hall := hrun []
  rw [List.append_nil, hlast] at hall
  exact ⟨turns, hall⟩

/-- Settles O48: each move keeps the parameters. -/
theorem configurationIsFixedForLife : Obligations.ConfigurationIsFixedForLife := fun _ _ h => h.schedule_cfg.2

/-- Settles O10: the Executor of a halted machine has no step, so the step passes its turn over or is a tick or
new keys. -/
theorem haltIsStickyAndFreezesTheMachine : Obligations.HaltIsStickyAndFreezesTheMachine := by
  intro s t hhalt h
  obtain hexec | ⟨-, rfl⟩ | rfl | ⟨held, rfl⟩ := step_cases h
  · have hrun : s.halted = none := (executorStep_cases hexec).1
    rw [hrun] at hhalt
    cases hhalt
  · rfl
  · rfl
  · rfl

/-- Settles O6: the word's two bytes are those at pc. -/
theorem stepRunsTheDecodedInstruction : Obligations.StepRunsTheDecodedInstruction := by
  intro s rest w hturn hpc hw
  rw [step_run hturn hpc, State.fetched_of_bytes hw]
  rfl

/-- Settles O7: pc is above the last address that can be fetched from, and is the faulting address itself. -/
theorem fetchOutOfBoundsIsFatal : Obligations.FetchOutOfBoundsIsFatal := fun _ _ => step_fatal

/-- Settles O9: with nothing scheduled the step is the Executor's, which a halt has left without one. -/
theorem haltedExecutorTakesNoStep : Obligations.HaltedExecutorTakesNoStep := by
  intro s kind hhalt
  refine ⟨fun hempty => ?_, fun rest => step_passes (Option.isSome_of_eq_some hhalt)⟩
  rw [step, takeTurn, hempty]
  exact executorStep_halted hhalt

end

section
/-! Runs in which the machine only ticks: the turns of the Ticker, and of the Executor once it is halted
(spec/60_exceptions.md R201, R210, R218). -/

namespace Sys2Proof.Machine

variable {s : State}

/-! ## Any number of ticks -/

theorem tick_iterate_frame (n : Nat) : ∀ s : State,
    State.tick^[n] s = { s with DT := (State.tick^[n] s).DT, ST := (State.tick^[n] s).ST } := by
  induction n with
  | zero => exact fun _ => rfl
  | succ n ih =>
    intro s
    rw [Function.iterate_succ_apply, ih s.tick]
    rfl

/-- Subtraction on `Nat` stays at 0, as the timers do. -/
theorem tick_iterate_toNat (n : Nat) : ∀ s : State,
    (State.tick^[n] s).DT.toNat = s.DT.toNat - n ∧ (State.tick^[n] s).ST.toNat = s.ST.toNat - n := by
  induction n with
  | zero => exact fun _ => ⟨rfl, rfl⟩
  | succ n ih =>
    intro s
    obtain ⟨hDT, hST⟩ := ih s.tick
    rw [Function.iterate_succ_apply, hDT, hST, State.tick_DT, State.tick_ST, tickTimer_toNat, tickTimer_toNat,
      Nat.sub_sub, Nat.sub_sub, Nat.add_comm 1 n]
    exact ⟨rfl, rfl⟩

/-! ## Turns that only tick -/

/-- The turn is a tick, or the Executor's on a machine that is halted. -/
def State.onlyTicks (s : State) (turn : Turn) : Prop :=
  turn = .tick ∨ turn = .executor ∧ s.halted.isSome = true

/-- A run of such turns does the ticks among them and nothing else. -/
theorem runTurns_onlyTicks (turns : List Turn) : ∀ {s : State}, (∀ turn ∈ turns, s.onlyTicks turn) →
    runTurns turns.length (s.withSchedule turns) =
      .next ((State.tick^[turns.count .tick] s).withSchedule []) := by
  induction turns with
  | nil => exact fun _ => rfl
  | cons turn rest ih =>
    intro s h
    have hrest : ∀ turn ∈ rest, s.onlyTicks turn := fun u hu => h u (List.mem_cons_of_mem _ hu)
    obtain rfl | ⟨rfl, hhalt⟩ := h turn List.mem_cons_self
    · rw [List.count_cons_self, Function.iterate_succ_apply, ← ih (s := s.tick) hrest]
      exact runTurns_succ_of_step rfl
    · rw [List.count_cons_of_ne (by decide), ← ih hrest]
      exact runTurns_succ_of_step (step_passes (s := s.withSchedule (.executor :: rest)) hhalt rfl)

/-- In the terms of the statements: each timer is as many lower as there are ticks, or 0. -/
theorem runTurns_onlyTicks_timers {turns : List Turn} (h : ∀ turn ∈ turns, s.onlyTicks turn) :
    ∃ t, runTurns turns.length (s.withSchedule turns) = .next t ∧
      t.DT.toNat = s.DT.toNat - turns.count .tick ∧ t.ST.toNat = s.ST.toNat - turns.count .tick ∧
      t = { s with DT := t.DT, ST := t.ST, schedule := [] } := by
  obtain ⟨hDT, hST⟩ := tick_iterate_toNat (turns.count .tick) s
  exact ⟨_, runTurns_onlyTicks turns h, hDT, hST,
    (congrArg (State.withSchedule · []) (tick_iterate_frame (turns.count .tick) s) :)⟩

/-! ## The turns of a frame -/

/-- The turns of a frame after the one that sets its keys. -/
def FrameInput.agentTurns (f : FrameInput) : List Turn := batchTurns f.ticks ++ List.replicate f.ticksAfter .tick

theorem FrameInput.keys_notMem_agentTurns (f : FrameInput) (held : KeySet) : Turn.keys held ∉ f.agentTurns := by
  simp [FrameInput.agentTurns, keys_notMem_batchTurns]

theorem FrameInput.count_tick_agentTurns (f : FrameInput) :
    f.agentTurns.count .tick = f.ticks.sum + f.ticksAfter := by
  rw [FrameInput.agentTurns, List.count_append, count_tick_batchTurns, List.count_replicate_self]

theorem FrameInput.count_executor_turns (f : FrameInput) : f.turns.count .executor = f.instructionsPerFrame := by
  simp [FrameInput.turns, FrameInput.instructionsPerFrame, count_executor_batchTurns, List.count_replicate]

/-- A halted machine only ticks through them: none sets keys. -/
theorem FrameInput.agentTurns_onlyTicks (f : FrameInput) (hhalt : s.halted.isSome = true) :
    ∀ turn ∈ f.agentTurns, s.onlyTicks turn := by
  intro turn hturn
  cases turn with
  | executor => exact .inr ⟨rfl, hhalt⟩
  | tick => exact .inl rfl
  | keys held => exact absurd hturn (f.keys_notMem_agentTurns held)

/-- A frame that is not stopped sets its keys and then runs the agents' turns (R218). -/
theorem frame_eq_run {f : FrameInput} (h : f.stop = false) (s : State) :
    frame f s = some (runTurns f.agentTurns.length ((s.setKeys f.held).withSchedule f.agentTurns)) := by
  rw [frame, h]
  exact congrArg some (runTurns_succ_of_step rfl)

end Sys2Proof.Machine
end

section
/-! The statements about runs of ticks and about the host's frame (spec/60_exceptions.md sections 3 and 5). -/

open Sys2Proof Sys2Proof.Machine

/-- Settles O12: all `n` turns are ticks. -/
theorem timersFallOncePerTickAndStayAtZero : Obligations.TimersFallOncePerTickAndStayAtZero := by
  intro s n
  have hticks : ∀ turn ∈ List.replicate n Turn.tick, s.onlyTicks turn :=
    fun _ hturn => .inl (List.eq_of_mem_replicate hturn)
  have hrun := runTurns_onlyTicks_timers hticks
  rw [List.length_replicate, List.count_replicate_self] at hrun
  exact hrun

/-- Settles O58: every scheduled turn is taken, and after the keys are set no turn of the frame sets them. -/
theorem frameRunsToItsEnd : Obligations.FrameRunsToItsEnd := by
  intro f s
  refine ⟨Nat.le_add_left 1 _, f.count_executor_turns, fun hstop => if_pos hstop, fun hstop => ?_⟩
  obtain ⟨t, hrun, hsched, hcfg, hheld⟩ :=
    runTurns_scheduled f.agentTurns ((s.setKeys f.held).withSchedule_schedule f.agentTurns)
  exact ⟨t, (frame_eq_run hstop s).trans (congrArg some hrun), hsched, hheld f.keys_notMem_agentTurns, hcfg⟩

/-- Settles O59: the frame's turns after its keys are the ticks and the Executor turns of a halted machine. -/
theorem frameOfAHaltedMachineOnlyTicks : Obligations.FrameOfAHaltedMachineOnlyTicks := by
  intro f s hstop hhalt
  rw [frame_eq_run hstop, ← f.count_tick_agentTurns]
  obtain ⟨t, hrun, hDT, hST, hrest⟩ :=
    runTurns_onlyTicks_timers (s := s.setKeys f.held) (f.agentTurns_onlyTicks hhalt)
  exact ⟨t, congrArg some hrun, hDT, hST, hrest⟩

end

section
/-! The contents of memory: that the canonical form is canonical, what a fetch reads of bytes just stored, and
what construction leaves (spec/20_memory.md sections 1, 2 and 7, spec/70_reset_and_hazards.md R230). -/

namespace Sys2Proof.Machine

variable {s t : State}

/-! ## The canonical form -/

/-- A memory's first cell does not read as after reset, so no memory without that address reads the same. -/
theorem Memory.read_ne_of_below {lo a : Nat} {v : Byte} {m n : Memory} (hm : Memory.wfFrom lo ((a, v) :: m) = true)
    (hn : Memory.wfFrom (a + 1) n = true) : Memory.read ((a, v) :: m) a ≠ n.read a := by
  obtain ⟨-, -, hv, -⟩ := Memory.wfFrom_cons.mp hm
  rw [Memory.read_below (Nat.lt_succ_self a) hn, Memory.read, if_pos rfl]
  exact hv

/-- Memories in canonical form that read the same begin with the same cell, and so do the rests. -/
theorem Memory.eq_of_read_eq : ∀ {lo : Nat} {m n : Memory}, Memory.wfFrom lo m = true →
    Memory.wfFrom lo n = true → (∀ a, m.read a = n.read a) → m = n
  | _, [], [], _, _, _ => rfl
  | _, [], (b, _) :: _, _, hn, h => absurd (h b).symm (Memory.read_ne_of_below hn rfl)
  | _, (a, _) :: _, [], hm, _, h => absurd (h a) (Memory.read_ne_of_below hm rfl)
  | lo, (a, v) :: m, (b, u) :: n, hm, hn, h => by
    obtain ⟨hloa, ha, hv, hm'⟩ := Memory.wfFrom_cons.mp hm
    obtain ⟨hlob, hb, hu, hn'⟩ := Memory.wfFrom_cons.mp hn
    obtain hab | rfl | hba := Nat.lt_trichotomy a b
    · exact absurd (h a) (Memory.read_ne_of_below hm (Memory.wfFrom_cons.mpr ⟨hab, hb, hu, hn'⟩))
    · obtain rfl : v = u := by simpa [Memory.read] using h a
      have hrest : ∀ c, Memory.read m c = Memory.read n c := fun c => by
        by_cases hc : c = a
        · rw [hc, Memory.read_below (Nat.lt_succ_self a) hm', Memory.read_below (Nat.lt_succ_self a) hn']
        · simpa [Memory.read, hc] using h c
      rw [Memory.eq_of_read_eq hm' hn' hrest]
    · exact absurd (h b).symm (Memory.read_ne_of_below hn (Memory.wfFrom_cons.mpr ⟨hba, ha, hv, hm'⟩))

/-! ## A placed word -/

theorem byteAt_placeWord {w : Word} (hwf : s.mem.wf = true) (hpc : s.pc.toNat ≤ lastFetch) (a : Nat) :
    (s.placeWord w).byteAt a = if a = s.pc.toNat then highByte w else if a = s.pc.toNat + 1 then lowByte w
      else s.byteAt a := by
  have hfirst : (s.storeByte s.pc.toNat (highByte w)).mem.wf = true :=
    Memory.write_wf hwf (by unfold lastFetch at hpc; unfold Config.memSize; omega) _
  rw [State.placeWord, State.byteAt_storeByte hfirst, State.byteAt_storeByte hwf]
  by_cases ha : a = s.pc.toNat
  · rw [if_neg (by omega), if_pos ha, if_pos ha]
  · rw [if_neg ha, if_neg ha]

theorem withFetchWord_eq (nbits w : Nat) : s.withFetchWord nbits w =
    { s with mem := (s.placeWord (tableWord nbits w)).mem, schedule := executorNext s.schedule } :=
  rfl

/-- The Executor's turn is next after the placing, in front of a tick or new keys that would come first. -/
theorem executorTurn_withFetchWord {rest : List Turn} (hrun : s.halted = none)
    (hsched : s.schedule = .executor :: rest ∨ s.schedule = rest ∧ ∀ r, rest ≠ .executor :: r) (nbits w : Nat) :
    (s.withFetchWord nbits w).executorTurn rest := by
  refine ⟨hrun, ?_⟩
  change executorNext s.schedule = [] ∧ rest = [] ∨ executorNext s.schedule = .executor :: rest
  obtain hfirst | ⟨hother, hne⟩ := hsched
  · rw [hfirst]
    exact .inr rfl
  · rw [hother]
    cases rest with
    | nil => exact .inl ⟨rfl, rfl⟩
    | cons turn rest =>
      cases turn with
      | executor => exact absurd rfl (hne rest)
      | tick | keys => exact .inr rfl

theorem tableWord_toNat {w : Nat} (h : w < 65536) : (tableWord 16 w).toNat = w := by
  rw [tableWord, BitVec.toNat_ofNat, Nat.mod_mod]
  exact Nat.mod_eq_of_lt h

/-- The bytes of memory after the placing, as numbers. -/
theorem read_placeWord_toNat {w : Nat} (hw : w < 65536) (hwf : s.mem.wf = true) (hpc : s.pc.toNat ≤ lastFetch)
    (a : Nat) : ((s.placeWord (tableWord 16 w)).mem.read a).toNat =
      if a = s.pc.toNat then w / 256 else if a = s.pc.toNat + 1 then w % 256 else (s.byteAt a).toNat := by
  have hbyte := congrArg BitVec.toNat (byteAt_placeWord (w := tableWord 16 w) hwf hpc a)
  rw [apply_ite BitVec.toNat, apply_ite BitVec.toNat, highByte_toNat, lowByte_toNat, tableWord_toNat hw] at hbyte
  exact hbyte

/-! ## The constructed machine -/

theorem construct_of_long {cfg : Config} {program : List Byte}
    (h : 4096 < cfg.programBase.toNat + program.length) : State.construct cfg program = none := by
  refine if_pos ?_
  unfold programRoom Config.memSize
  omega

theorem construct_of_fits {cfg : Config} {program : List Byte}
    (h : cfg.programBase.toNat + program.length ≤ 4096) : ∃ s, State.construct cfg program = some s := by
  refine ⟨_, if_neg ?_⟩
  unfold programRoom Config.memSize
  omega

/-- The program lies over the font, and the font over zeros (R230). -/
theorem read_loadedMemory {cfg : Config} {program : List Byte} (hcfg : cfg.wf = true)
    (hfits : cfg.programBase.toNat + program.length ≤ Config.memSize) (a : Nat) :
    (loadedMemory cfg program).read a =
      if cfg.programBase.toNat ≤ a ∧ a < cfg.programBase.toNat + program.length
      then program.getD (a - cfg.programBase.toNat) 0
      else if cfg.fontBase.toNat ≤ a ∧ a < cfg.fontBase.toNat + cfg.fontTable.length
      then cfg.fontTable.getD (a - cfg.fontBase.toNat) 0 else 0 := by
  have hfont := Config.font_fits hcfg
  rw [loadedMemory, Memory.read_writeBytes _ a (Memory.writeBytes_wf _ zeroMemory_wf hfont) hfits,
    Memory.read_writeBytes _ a zeroMemory_wf hfont, zeroMemory_read]

theorem Config.fontTable_length {cfg : Config} (h : cfg.wf = true) : cfg.fontTable.length = 80 := by
  simp only [Config.wf, Bool.and_eq_true, decide_eq_true_eq] at h
  obtain ⟨⟨-, hlen⟩, -⟩ := h
  exact hlen

end Sys2Proof.Machine
end

section
/-! The statements of spec/20_memory.md and spec/70_reset_and_hazards.md on memory, loading and reset. -/

open Sys2Proof Sys2Proof.Machine

/-- Settles O36: the canonical form lists exactly the addresses that read otherwise than after reset, in
ascending order. -/
theorem equalMemoriesAreEqualData : Obligations.EqualMemoriesAreEqualData := fun _ _ =>
  Memory.eq_of_read_eq

/-- Settles O8: the turn is the Executor's, and the two bytes at pc are the word's. -/
theorem placedWordIsFetchedAndRun : Obligations.PlacedWordIsFetchedAndRun := by
  intro s w rest hw hwf hrun hpc hsched
  have hmem := read_placeWord_toNat hw hwf hpc
  have hhigh := hmem s.pc.toNat
  have hlow := hmem (s.pc.toNat + 1)
  rw [if_pos rfl] at hhigh
  rw [if_neg (Nat.succ_ne_self _), if_pos rfl] at hlow
  have hword : (BitVec.ofNat 16 w).toNat = 256 * (w / 256) + w % 256 :=
    (Nat.mod_eq_of_lt hw).trans (Nat.div_add_mod w 256).symm
  rw [← hhigh, ← hlow] at hword
  have hfetched : (s.withFetchWord 16 w).fetched = decodeWord s.cfg.strict59 (BitVec.ofNat 16 w) :=
    State.fetched_of_bytes hword
  refine ⟨(s.placeWord (tableWord 16 w)).mem, ?_, hmem⟩
  rw [step_run (executorTurn_withFetchWord hrun hsched 16 w) hpc, hfetched, withFetchWord_eq]
  rfl

/-- Settles O35: the two stores are the bytes at pc that the step fetches. -/
theorem storedBytesAreFetched : Obligations.StoredBytesAreFetched := by
  intro x k j s t u rest w hwf hj hjx hlast h hmem hturn hpc hw
  obtain ⟨t', ht', -, -, hstores⟩ := execStRegs_spec x s
  obtain rfl := Host.Outcome.next.inj (ht'.symm.trans h)
  obtain ⟨-, hbytes, -⟩ := hstores hwf
  have hnext : s.ea j.val = s.ea k.val + 1 := by rw [hj]; rfl
  have hkx : k ≤ x := le_trans (Fin.le_def.mpr (by omega)) hjx
  have hhigh := hbytes k hkx (by unfold lastByte; omega)
  have hlow := hbytes j hjx hlast
  have hfetched : u.fetched = decodeWord u.cfg.strict59 w := by
    refine State.fetched_of_bytes ?_
    rw [hpc, ← hnext, State.byteAt, State.byteAt, hmem, ← State.byteAt, ← State.byteAt, hhigh, hlow]
    exact hw
  rw [step_run hturn (by unfold lastFetch; omega), hfetched]
  rfl

/-- Settles O52: the loader's test is the length, and what it builds is the reset state but for the parameters,
pc, the slots and memory. -/
theorem loadPlacesFontAndProgram : Obligations.LoadPlacesFontAndProgram := by
  intro cfg program hcfg
  refine ⟨construct_of_long, fun hfits => ?_⟩
  obtain ⟨s, hs⟩ := construct_of_fits hfits
  obtain ⟨-, rfl⟩ := construct_eq_some hs
  refine ⟨_, hs, fun a => ?_, zextAddr_toNat _, fun x => ?_, rfl, rfl, fun k => ?_, rfl, rfl,
    pixel_blankScreen State.reset, noKeys_eq_false, rfl, rfl, rfl, rfl, List.length_replicate, rfl⟩
  · rw [← Config.fontTable_length hcfg]
    exact read_loadedMemory hcfg hfits a
  · simp [State.reg, State.reset]
  · simp [State.slot]

/-- Settles O51: the state after reset is the default machine constructed with no program. -/
theorem resetMeetsTheInvariants : Obligations.ResetMeetsTheInvariants :=
  ⟨construct_inv (by decide) construct_default, construct_latchInv construct_default⟩

end

section
/-! Independence of the timers and of the framebuffer (spec/40_display.md, spec/20_memory.md sections 5 and 6):
an instruction that names neither does the same whatever they hold. -/

namespace Sys2Proof.Machine

/-- The state with other timers and another picture: a tick and a change of the picture are both of this form. -/
def State.overlay (d e : Byte → Byte) (c : Framebuffer → Framebuffer) (s : State) : State :=
  { s with DT := d s.DT, ST := e s.ST, fb := c s.fb }

section overlay

variable (d e : Byte → Byte) (c : Framebuffer → Framebuffer) (s : State)

/-! ## The shared operations under an overlay

Each reads neither timers nor picture, so an overlay passes through both branches of its test. -/

theorem overlay_skipIf (b : Bool) : (s.skipIf b).overlay d e c = (s.overlay d e c).skipIf b :=
  apply_ite (State.overlay d e c) _ _ _

theorem overlay_writeResultAndFlag (x : RegIdx) (res flag : Byte) :
    (s.writeResultAndFlag x res flag).overlay d e c = (s.overlay d e c).writeResultAndFlag x res flag :=
  apply_ite (State.overlay d e c) _ _ _

theorem overlay_shiftCopy (x y : RegIdx) : (s.shiftCopy x y).overlay d e c = (s.overlay d e c).shiftCopy x y :=
  apply_ite (State.overlay d e c) _ _ _

theorem overlay_writeIndexFlag (v : Word) :
    (s.writeIndexFlag v).overlay d e c = (s.overlay d e c).writeIndexFlag v := by
  rw [State.writeIndexFlag, apply_ite (State.overlay d e c), apply_ite (State.overlay d e c)]
  rfl

theorem overlay_storeThroughI (k : Nat) (v : Byte) :
    (s.storeThroughI k v).overlay d e c = (s.overlay d e c).storeThroughI k v :=
  apply_ite (State.overlay d e c) _ _ _

theorem overlay_loadThroughI (k : RegIdx) : (s.loadThroughI k).overlay d e c = (s.overlay d e c).loadThroughI k :=
  apply_ite (State.overlay d e c) _ _ _

/-! ## The instructions -/

variable {d e c s} in
/-- An instruction that names neither a timer nor the screen does the same under an overlay. -/
theorem exec_overlay {i : Instr} {t : State} (hdt : ∀ x, i ≠ .ldVxDt x ∧ i ≠ .ldDtVx x ∧ i ≠ .ldStVx x)
    (hcls : i ≠ .cls) (hdrw : ∀ x y n, i ≠ .drw x y n) (h : exec i s = .next t) :
    exec i (s.overlay d e c) = .next (t.overlay d e c) := by
  cases i with
  | cls => exact absurd rfl hcls
  | drw x y n => exact absurd rfl (hdrw x y n)
  | ldVxDt x => exact absurd rfl (hdt x).1
  | ldDtVx x => exact absurd rfl (hdt x).2.1
  | ldStVx x => exact absurd rfl (hdt x).2.2
  | ret =>
    rw [exec, execRet_eq] at h ⊢
    rw [← Host.Outcome.next.inj h, apply_ite (State.overlay d e c)]
    rfl
  | call nnn =>
    rw [exec, execCall_eq] at h ⊢
    rw [← Host.Outcome.next.inj h, apply_ite (State.overlay d e c)]
    rfl
  | ldVxK x =>
    cases hkey : s.releasedKey with
    | some k =>
      obtain rfl := Host.Outcome.next.inj ((exec_ldVxK_release x hkey).symm.trans h)
      exact exec_ldVxK_release (s := s.overlay d e c) x hkey
    | none =>
      obtain rfl := Host.Outcome.next.inj ((exec_ldVxK_repeat x hkey).symm.trans h)
      rw [exec_ldVxK_repeat (s := s.overlay d e c) x hkey]
      simp only [State.overlay, State.latchHeld, State.setPc]
  | seImm | sneImm | seReg | sneReg | skp | sknp =>
    obtain rfl := Host.Outcome.next.inj h
    exact congrArg Host.Outcome.next (overlay_skipIf d e c s _).symm
  | addReg | subReg | subnReg =>
    obtain rfl := Host.Outcome.next.inj h
    exact congrArg Host.Outcome.next (overlay_writeResultAndFlag d e c s _ _ _).symm
  | shrReg x y | shlReg x y =>
    obtain rfl := Host.Outcome.next.inj h
    simp only [exec, execShrReg, execShlReg, ← overlay_shiftCopy, overlay_writeResultAndFlag]
    rfl
  | addI x =>
    obtain rfl := Host.Outcome.next.inj h
    exact congrArg Host.Outcome.next (overlay_writeIndexFlag d e c (s.setI (s.indexSum x)) _).symm
  | ldB x =>
    obtain rfl := Host.Outcome.next.inj h
    simp only [exec, execLdB, overlay_storeThroughI]
    rfl
  | stRegs x =>
    obtain rfl := Host.Outcome.next.inj h
    exact congrArg Host.Outcome.next
      (foldl_commutes (fun t (k : RegIdx) => (overlay_storeThroughI d e c t k.val (s.reg k)).symm) _ s)
  | ldRegs x =>
    obtain rfl := Host.Outcome.next.inj h
    exact congrArg Host.Outcome.next (foldl_commutes (fun t k => (overlay_loadThroughI d e c t k).symm) _ s)
  | _ =>
    obtain rfl := Host.Outcome.next.inj h
    rfl

end overlay

/-! ## Drawing and the timers -/

theorem drawPixel_tick (x y : Nat) (s : State) : drawPixel x y s.tick = (drawPixel x y s).tick := by
  unfold drawPixel
  split
  case isTrue h => cases hp : s.pixel ⟨x, h.1⟩ ⟨y, h.2⟩ <;> simp only [State.pixel_tick, hp] <;> rfl
  case isFalse => rfl

theorem drawRow_tick (row : Byte) (x0 y : Nat) (s : State) :
    drawRow row x0 y s.tick = (drawRow row x0 y s).tick :=
  foldl_commutes (fun t k => by rw [drawPixel_tick, apply_ite State.tick]) _ s

theorem drawRows_tick (x0 y0 base : Nat) (rs : List Nat) : ∀ s : State,
    drawRows x0 y0 base rs s.tick = (drawRows x0 y0 base rs s).tick := by
  induction rs with
  | nil => exact fun _ => rfl
  | cons r rs ih =>
    intro s
    simp only [drawRows]
    split
    · rfl
    · split
      · exact ih (s.signalAor (base + r))
      · rw [State.byteAt_tick, drawRow_tick, ih]

theorem exec_drw_tick {x y : RegIdx} {n : Nibble} {s t : State} (h : exec (.drw x y n) s = .next t) :
    exec (.drw x y n) s.tick = .next t.tick := by
  obtain rfl := Host.Outcome.next.inj h
  exact congrArg _ (drawRows_tick _ _ _ _ (s.setReg vF 0))

/-! ## Who writes the picture -/

theorem exec_writes_fb {i : Instr} {s t : State} (h : exec i s = .next t) (hne : t.fb ≠ s.fb) :
    i = .cls ∨ ∃ x y n, i = .drw x y n := by
  have hfoot := exec_footprint h
  cases i with
  | cls => exact .inl rfl
  | drw x y n => exact .inr ⟨x, y, n, rfl⟩
  | _ => exact absurd (congrArg State.fb hfoot :) hne

/-- An instruction other than 00E0 and DXYN does the same with another picture. -/
theorem exec_with_fb {i : Instr} {s t : State} (f : Framebuffer) (hcls : i ≠ .cls)
    (hdrw : ∀ x y n, i ≠ .drw x y n) (h : exec i s = .next t) :
    exec i { s with fb := f } = .next { t with fb := f } := by
  by_cases htimer : ∃ x, i = .ldVxDt x ∨ i = .ldDtVx x ∨ i = .ldStVx x
  · obtain ⟨x, rfl | rfl | rfl⟩ := htimer <;> obtain rfl := Host.Outcome.next.inj h <;> rfl
  · have hdt : ∀ x, i ≠ .ldVxDt x ∧ i ≠ .ldDtVx x ∧ i ≠ .ldStVx x := by simpa using htimer
    exact exec_overlay (d := id) (e := id) (c := fun _ => f) hdt hcls hdrw h

end Sys2Proof.Machine
end

section
/-! The statements that compare two executions (spec/40_display.md, spec/20_memory.md sections 5 and 6). -/

open Sys2Proof Sys2Proof.Machine

/-- Settles O55: a tick is an overlay of the timers; 00E0 and DXYN, which do write the picture, neither read nor
write a timer. -/
theorem ticksCommuteWithOtherInstructions : Obligations.TicksCommuteWithOtherInstructions := by
  intro i s t hdt h
  by_cases hscreen : i = .cls ∨ ∃ x y n, i = .drw x y n
  · obtain rfl | ⟨x, y, n, rfl⟩ := hscreen
    · obtain rfl := Host.Outcome.next.inj h
      rfl
    · exact exec_drw_tick h
  · obtain ⟨hcls, hdrw⟩ := not_or.mp hscreen
    exact exec_overlay (d := tickTimer) (e := tickTimer) (c := id) hdt hcls (fun x y n hi => hdrw ⟨x, y, n, hi⟩) h

/-- Settles O40: another picture is an overlay of the framebuffer, and 00E0 writes every pixel. -/
theorem onlyDrawReadsAndTwoInstructionsWriteTheDisplay :
    Obligations.OnlyDrawReadsAndTwoInstructionsWriteTheDisplay := by
  intro i s t f hdrw h
  refine ⟨fun hcls => ⟨?_, exec_with_fb f hcls hdrw h⟩, ?_⟩
  · by_contra hne
    obtain hi | ⟨x, y, n, hi⟩ := exec_writes_fb h hne
    · exact hcls hi
    · exact hdrw x y n hi
  · rintro rfl
    obtain rfl := Host.Outcome.next.inj h
    rfl

end
